-- ==== Sys2Proof/Word.lean ====
section
/-! DEFINITION. The bit vectors of the block: the widths spec/00_scope.md section 4 fixes. All are unsigned (R4). -/

namespace Sys2Proof

/-- A 64-bit value: the accumulator, a table entry, a command's operand (R4, `ACC_WIDTH`, `TABLE_ENTRY_WIDTH`). -/
abbrev Word := BitVec 64

/-- A byte value, and a table index (R4, `BYTE_WIDTH`; R30). -/
abbrev Byte := BitVec 8

/-- The command word `cmd[71:0]` (R45). -/
abbrev CmdWord := BitVec 72

/-- The data field of a response, `rsp[127:0]` (R47). -/
abbrev Data := BitVec 128

/-- The response word `rsp[135:0]` (R47). -/
abbrev RspWord := BitVec 136

end Sys2Proof
end

