-- ==== Sys2Proof/Config.lean ====
section
/-! DEFINITION. What is fixed when a block is built: the parameters of spec/00_scope.md section 4 that the spec decides.
`NACC = 1` and `TABLE_BUILD = explicit-or-lazy` have one meaning each and are the shape of State and of `ensureTable`. -/

namespace Sys2Proof.Config

/-- The exponents below 64 of the generator polynomial x^64 + x^4 + x^3 + x + 1 (R1); x^64 is the coefficient the
64-bit constant does not store (R10). -/
def generatorExponents : List Nat := [4, 3, 1, 0]

/-- `GEN_STEPS`: shift steps per table entry (R66). -/
def genSteps : Nat := 8

/-- `TABLE_ENTRIES` (R11). -/
def tableEntries : Nat := 256

/-- `RANGE_CHECK = enabled`. UNVERIFIED (log 9): DOC0 section 9 doubts it, the spec keeps it as normative (C3, U1). -/
def rangeCheck : Bool := true

/-- `HAS_FMT = yes`, the spec's value (C2, U12; log 10). -/
def hasFmt : Bool := true

end Sys2Proof.Config
end

