-- ==== Sys2Proof/Syntax.lean ====
section
/-! DEFINITION. The eight commands of CRC64ISO-CMD v1 (R50), one constructor per row of spec/opcode_table.json. -/

namespace Sys2Proof

/-- A decoded command. An operand is the whole 64-bit `arg`: formats B and X range-check all of it (R48), so the
out-of-range values are commands too, which the machine answers with `InvalidInput` (R50). -/
inductive Instr where
  /-- TGEN, format N: build the lookup table (R69). -/
  | tgen
  /-- TRD, format X: read table entry `idx` (R70). -/
  | trd (idx : Word)
  /-- STAT, format N: read the status register (R71). -/
  | stat
  /-- INIT, format N: accumulator to 0 (R81). -/
  | init
  /-- LDACC, format V: accumulator to `v` (R82). -/
  | ldacc (v : Word)
  /-- ABS, format B: absorb the byte `b` (R83). -/
  | abs (b : Word)
  /-- RDACC, format N: read out the accumulator (R84). -/
  | rdacc
  /-- FMT, format N: read out the accumulator as text (R116). -/
  | fmt
  deriving DecidableEq, Repr

/-- The four uses of `arg` (R46). -/
inductive Format where
  /-- No operand: `arg` must be 0. -/
  | n
  /-- A byte value 0..255. -/
  | b
  /-- A table index 0..255. -/
  | x
  /-- Any 64-bit value. -/
  | v
  deriving DecidableEq, Repr

/-- The format of each command (R46, R50). -/
def Instr.format : Instr → Format
  | .tgen => .n
  | .trd _ => .x
  | .stat => .n
  | .init => .n
  | .ldacc _ => .v
  | .abs _ => .b
  | .rdacc => .n
  | .fmt => .n

/-- The value a command carries in `arg`; 0 for format N (R46). -/
def Instr.operand : Instr → Word
  | .tgen => 0
  | .trd idx => idx
  | .stat => 0
  | .init => 0
  | .ldacc v => v
  | .abs b => b
  | .rdacc => 0
  | .fmt => 0

end Sys2Proof
end

