-- ==== Sys2Proof/WellFormed.lean ====
section
/-! DEFINITION. The legal operand values of each format (R46). Every command has an encoding, well-formed or not, and every
command is executed: an operand that fails the check is answered with `InvalidInput` (R85, R70). -/

namespace Sys2Proof

/-- The third column of R46's table: which values of `arg` a format calls legal. -/
def Format.legal (f : Format) (arg : Word) : Bool :=
  match f with
  | .n => arg == 0
  | .b => arg.toNat ≤ 255
  | .x => arg.toNat ≤ 255
  | .v => true

/-- A command whose operand is legal for its format (R46). -/
def Instr.wellFormed (i : Instr) : Bool := i.format.legal i.operand

end Sys2Proof
end

