-- ==== Sys2Proof/Decode.lean ====
section
/-! DEFINITION. From the 72-bit command word to a command or a named rejection (R45, R49 to R54), and the encoder. -/

namespace Sys2Proof

/-- Why a word is no command (R127). -/
inductive Illegal where
  /-- The opcode is not in the map (R51). -/
  | reservedOpcode
  /-- A format N command with `arg` not 0 (R52). -/
  | nonzeroOperand
  deriving DecidableEq, Repr

/-- `op = cmd[71:64]` (R45). -/
def opField (w : CmdWord) : Byte := w.extractLsb' 64 8

/-- `arg = cmd[63:0]` (R45). -/
def argField (w : CmdWord) : Word := w.extractLsb' 0 64

/-- A format N command: its unused operand is checked, not ignored (R52). -/
def noOperand (arg : Word) (i : Instr) : Except Illegal Instr :=
  if arg = 0 then .ok i else .error .nonzeroOperand

/-- The dispatch of R49 for a block with or without FMT: without it, opcode 0x14 is reserved (U12). -/
def decodeFor (hasFmt : Bool) (w : CmdWord) : Except Illegal Instr :=
  match (opField w).toNat with
  | 0x01 => noOperand (argField w) .tgen
  | 0x02 => .ok (.trd (argField w))
  | 0x03 => noOperand (argField w) .stat
  | 0x10 => noOperand (argField w) .init
  | 0x11 => .ok (.ldacc (argField w))
  | 0x12 => .ok (.abs (argField w))
  | 0x13 => noOperand (argField w) .rdacc
  | 0x14 => if hasFmt then noOperand (argField w) .fmt else .error .reservedOpcode
  | _ => .error .reservedOpcode

/-- The decoder of this block: total on all 72-bit words (R49). -/
def decode (w : CmdWord) : Except Illegal Instr := decodeFor Config.hasFmt w

/-- The opcode of each command (R50). -/
def opcode : Instr → Byte
  | .tgen => 0x01
  | .trd _ => 0x02
  | .stat => 0x03
  | .init => 0x10
  | .ldacc _ => 0x11
  | .abs _ => 0x12
  | .rdacc => 0x13
  | .fmt => 0x14

/-- The word of a command: `op` in bits 71:64, `arg` in bits 63:0 (R45). -/
def encode (i : Instr) : CmdWord := opcode i ++ i.operand

/-- A row of R50's match and mask table: a word `w` selects the row when `w & mask = pattern`. -/
structure OpcodeRow where
  opcode : Byte
  pattern : CmdWord
  mask : CmdWord
  deriving DecidableEq, Repr

/-- Whether a word selects a row (R50). -/
def OpcodeRow.selects (r : OpcodeRow) (w : CmdWord) : Bool := w &&& r.mask == r.pattern

/-- R50's second table, row by row: TGEN, TRD, STAT, INIT, LDACC, ABS, RDACC, FMT. -/
def opcodeRows : List OpcodeRow :=
  [⟨0x01, 0x01_0000000000000000, 0xFF_FFFFFFFFFFFFFFFF⟩,
   ⟨0x02, 0x02_0000000000000000, 0xFF_0000000000000000⟩,
   ⟨0x03, 0x03_0000000000000000, 0xFF_FFFFFFFFFFFFFFFF⟩,
   ⟨0x10, 0x10_0000000000000000, 0xFF_FFFFFFFFFFFFFFFF⟩,
   ⟨0x11, 0x11_0000000000000000, 0xFF_0000000000000000⟩,
   ⟨0x12, 0x12_0000000000000000, 0xFF_0000000000000000⟩,
   ⟨0x13, 0x13_0000000000000000, 0xFF_FFFFFFFFFFFFFFFF⟩,
   ⟨0x14, 0x14_0000000000000000, 0xFF_FFFFFFFFFFFFFFFF⟩]

/-- The command word whose 72 bits are the low 72 bits of `w`. DEDUCED (log 15): the opcode table numbers a word's bits as R45
does, bit 0 the least significant bit of the one 72-bit word, and gives every row all 72. -/
def tableWord (w : Nat) : CmdWord := BitVec.ofNat 72 w

/-- The command the decoder reads from an instruction of `nbits` bits whose bits are `w`; none for an illegal word. Every
command has 72 bits (R54); none for a truncated or an over-long word, which is never filled up or cut to 72: DESIGN CHOICE, as
U7 asks (log 8). -/
def decodeTableWord (nbits w : Nat) : Option Instr :=
  if nbits = 72 then
    match decode (tableWord w) with
    | .ok i => some i
    | .error _ => none
  else none

end Sys2Proof
end

