-- ==== Sys2Proof/Machine/State.lean ====
section
/-! DEFINITION. The state of the block (R11, R13, R14), its port as the model holds it, and the reasons a step can stop. -/

namespace Sys2Proof.Machine

/-- The table space, the only address space (R30): (index, entry) pairs. The unit of addressing is the 64-bit entry, so a
cell is an entry, not a byte (log 5). Canonical form (`Memory.wf`): indices strictly rising, each below 256; an unlisted
index holds no value (R23, U4). -/
abbrev Memory := List (Nat × Word)

/-- Whether the indices of a memory rise strictly from `lo` on and stay below 256. -/
def Memory.wfFrom (lo : Nat) : Memory → Bool
  | [] => true
  | (k, _) :: rest => decide (lo ≤ k) && decide (k < Config.tableEntries) && Memory.wfFrom (k + 1) rest

/-- The canonical form: equal tables are equal data. -/
def Memory.wf (m : Memory) : Bool := Memory.wfFrom 0 m

/-- The statuses a response can carry; the codes 0x03 to 0xFF are never produced, so there is no other (R125). -/
inductive Status where
  /-- The command executed as its rule says. -/
  | ok
  /-- Exception `InvalidInput`: an operand outside its legal range (R126). -/
  | invalidInput
  /-- Exception `IllegalCommand`: the word is not a command (R127). -/
  | illegalCommand
  deriving DecidableEq, Repr

/-- A response: its two fields (R47). -/
structure Response where
  status : Status
  data : Data
  deriving DecidableEq, Repr

/-- What the host can do at the port (R153), and the two things whose outcome the spec leaves unspecified. -/
inductive PortEvent where
  /-- The host presents one whole command word. -/
  | command (w : CmdWord)
  /-- The host raises reset between two commands (R145, R146). -/
  | reset
  /-- The host raises reset while the command `w` is in flight (R146, U6). -/
  | resetDuring (w : CmdWord)
  /-- A word of `nbits` bits where 72 are asked for: truncated or over-long (R153, U7). -/
  | brokenWord (nbits : Nat)
  deriving DecidableEq, Repr

/-- The block (`acc`, `tv`, `table`: R20, nothing else) and its port (`pending`, `responses`: the model's own). -/
structure State where
  /-- `ACC`, the accumulator (R14). -/
  acc : Word
  /-- `tv`, the table-valid flag (R13). -/
  tv : Bool
  /-- `T`, the lookup table (R11). -/
  table : Memory
  /-- The host's port events not yet taken, oldest first (log 1). -/
  pending : List PortEvent
  /-- The responses produced so far, oldest first; the block never reads them (log 2). -/
  responses : List Response
  deriving DecidableEq, Repr

/-- Right after reset: R21, R22, R23. Nothing has been presented and nothing answered (logs 1 and 2). -/
def State.reset : State where
  acc := 0
  tv := false
  table := []
  pending := []
  responses := []

/-- The machine stops with a fault. -/
inductive Fault where
  /-- A read of a table entry that nothing has written. Raised by `readEntry`, for TRD and ABS, in states with `tv = 1` and no
  such entry, which no run reaches. Safe: the entry is absent, not a value (R23, U4; log 4). -/
  | entryNotBuilt
  deriving DecidableEq, Repr

/-- The model gives no meaning. -/
inductive Refusal where
  /-- An instruction without a meaning yet, raised by `exec`'s arms only. Safe. -/
  | notModelled (mnemonic : String)
  /-- A command in flight when reset is raised: whether it completes is unspecified. Raised by `takeEvent`. Safe (U6; log 7). -/
  | commandInFlightAtReset
  /-- A truncated or over-long word at the port. Raised by `takeEvent`. Safe (U7; log 8). -/
  | notAWholeWord
  /-- ABS in a block built with `RANGE_CHECK = disabled`, for which the spec defines no behaviour. Raised by `execAbs`, and
  never in this block, whose `Config.rangeCheck` is true. Safe (U1; log 9). -/
  | rangeCheckDisabled
  deriving DecidableEq, Repr

/-- The outcome of a command or of a step. -/
abbrev Result := Host.Outcome State Fault Refusal

end Sys2Proof.Machine
end

