-- ==== Sys2Proof/Machine/Flags.lean ====
section
/-! DEFINITION. The block has no flag and no condition code (R18). What stands in their place: the read-only `STATUS` register
(R19) and the status codes of responses (R125), with the response word (R47). -/

namespace Sys2Proof.Machine

/-- `STATUS`: bit 0 is a view of `tv`, bits 63:1 are hardwired to 0 (R19). -/
def statusReg (s : State) : Word := if s.tv then 1 else 0

/-- The code of a status (R125). -/
def statusCode : Status → Byte
  | .ok => 0x00
  | .invalidInput => 0x01
  | .illegalCommand => 0x02

/-- The 136-bit response word: `status` in bits 135:128, `data` in bits 127:0 (R47). -/
def responseWord (r : Response) : RspWord := statusCode r.status ++ r.data

/-- A 64-bit result in the data field, zero-extended (R58). -/
def resultData (v : Word) : Data := v.setWidth 128

end Sys2Proof.Machine
end

