-- ==== Sys2Proof/Machine/Generator.lean ====
section
/-! DEFINITION. The arithmetic of the table generator and of the accumulator, apart from any state: `POLY` (R10), the shift step
`g` (R65), `gen` (R66), the byte step (R80). -/

namespace Sys2Proof.Machine

/-- `POLY`, the reflected generator polynomial (R10). UNVERIFIED (log 11): DOC0 prints no literal. -/
def poly : Word := 0xD800000000000000

/-- The shift-register step: test bit 0, shift right logically, exclusive-or `POLY` if the bit was set (R65). -/
def shiftStep (r : Word) : Word :=
  if r.getLsbD 0 then (r >>> 1) ^^^ poly else r >>> 1

/-- `g^n` (R66). -/
def shiftSteps : Nat → Word → Word
  | 0, r => r
  | n + 1, r => shiftSteps n (shiftStep r)

/-- `gen(v)`: eight shift steps from the byte in bits 7:0 (R66). -/
def gen (v : Byte) : Word := shiftSteps Config.genSteps (v.setWidth 64)

/-- The index of the lookup, `(a ^ zext_64(b))[7:0]` (R80, R34). -/
def lookupIndex (a : Word) (b : Byte) : Byte := (a ^^^ b.setWidth 64).extractLsb' 0 8

/-- The new accumulator from the entry read and the old accumulator, `T[idx] ^ (a >> 8)` (R80). -/
def drainByte (entry a : Word) : Word := entry ^^^ (a >>> 8)

/-- `step(a, b)` over the built table, whose entries are `gen` (R80, R67). -/
def byteStep (a : Word) (b : Byte) : Word := drainByte (gen (lookupIndex a b)) a

end Sys2Proof.Machine
end

