-- ==== Sys2Proof/Machine/Operands.lean ====
section
/-! DEFINITION. How the operand forms that can be illegal read `arg`: formats B and X (R46, R48). Format V takes `arg` whole;
format N's check is the decoder's (R52). -/

namespace Sys2Proof.Machine

/-- What the check of an operand finds. -/
inductive OperandCheck where
  /-- `arg` is in 0..255 and names this byte or index. -/
  | inRange (b : Byte)
  /-- `arg` is greater than 255. -/
  | outOfRange
  /-- The block is built without the check, which the spec gives no behaviour (U1). -/
  | unspecified
  deriving DecidableEq, Repr

/-- The whole 64-bit operand against 0..255, before its low 8 bits are used: `arg[63:8] = 0` (R48). -/
def checkRange (arg : Word) : OperandCheck :=
  if arg.extractLsb' 8 56 = 0 then .inRange (arg.extractLsb' 0 8) else .outOfRange

/-- Format B, the byte of ABS, under the parameter `RANGE_CHECK` (R46, R85, U1). -/
def byteOperandFor (rangeCheck : Bool) (arg : Word) : OperandCheck :=
  if rangeCheck then checkRange arg else .unspecified

/-- Format B in this block. -/
def byteOperand (arg : Word) : OperandCheck := byteOperandFor Config.rangeCheck arg

/-- Format X, the index of TRD (R46, R70). -/
def indexOperand (arg : Word) : OperandCheck := checkRange arg

end Sys2Proof.Machine
end

