-- ==== Sys2Proof/Machine/Ops.lean ====
section
/-! DEFINITION. The named operations over the state: the table space, the build, the accumulator, the response, raising an
exception, and reset. There is no return from an exception: nothing is saved and nothing is to be restored (R133, R134). -/

namespace Sys2Proof.Machine

/-- The entry listed at an index. -/
def Memory.find (a : Nat) : Memory → Option Word
  | [] => none
  | (k, v) :: rest => if k = a then some v else Memory.find a rest

/-- `MemRead(i, 8)`: the whole entry, or nothing where nothing has been written (R30, R23). -/
def Memory.read (m : Memory) (i : Byte) : Option Word := m.find i.toNat

/-- The memory with one entry put at its place, in canonical form. -/
def Memory.put (a : Nat) (v : Word) : Memory → Memory
  | [] => [(a, v)]
  | (k, w) :: rest =>
    if a < k then (a, v) :: (k, w) :: rest
    else if a = k then (a, v) :: rest
    else (k, w) :: Memory.put a v rest

/-- `MemWrite(i, 8, v)`: replaces one whole entry (R30). -/
def Memory.write (m : Memory) (i : Byte) (v : Word) : Memory := m.put i.toNat v

/-- The writes of the build, `T[v] <- gen(v)`, in the order given (R68). -/
def fillTable (order : List Byte) (m : Memory) : Memory :=
  order.foldl (fun t v => t.write v (gen v)) m

/-- The order in which this model writes the 256 entries: 255 first. DESIGN CHOICE (log 6): any order gives the same table
(R68, R72). -/
def buildOrder : List Byte := ((List.range Config.tableEntries).map (BitVec.ofNat 8)).reverse

/-- `EnsureTable()` (R68): when `tv = 0`, write all 256 entries and set `tv`; when `tv = 1`, nothing. -/
def ensureTable (s : State) : State :=
  if s.tv then s else { s with table := fillTable buildOrder s.table, tv := true }

/-- Read `T[i]` and go on with the entry; an entry nothing has written is absent, not a value (R23, U4; log 4). -/
def readEntry (i : Byte) (s : State) (go : Word → Result) : Result :=
  match s.table.read i with
  | some v => go v
  | none => .fault .entryNotBuilt

/-- `ACC <- v` (R14). -/
def setAcc (v : Word) (s : State) : State := { s with acc := v }

/-- `respond(status, data)`: the command completes and its response is produced (R47). -/
def respond (status : Status) (data : Data) (s : State) : State :=
  { s with responses := s.responses ++ [⟨status, data⟩] }

/-- The two exceptions (R126, R127). -/
inductive Exception where
  | invalidInput
  | illegalCommand
  deriving DecidableEq, Repr

/-- The status that reports an exception (R125). -/
def exceptionStatus : Exception → Status
  | .invalidInput => .invalidInput
  | .illegalCommand => .illegalCommand

/-- Taking an exception: the response carries its status and data 0, and nothing else changes; no register is saved, no mode
or mask changes, control goes nowhere, and the block goes on (R128, R133, R134). -/
def raise (e : Exception) (s : State) : Result := .next (respond (exceptionStatus e) 0 s)

/-- The reset event: `ACC <- 0`, `tv <- 0`, `T` unspecified, that is absent (R145, R23; log 4). It gives the host nothing back
and does not touch what the host has still to present. -/
def resetBlock (s : State) : State :=
  { s with acc := State.reset.acc, tv := State.reset.tv, table := State.reset.table }

end Sys2Proof.Machine
end

