-- ==== Sys2Proof/Machine/Accumulator.lean ====
section
/-! DEFINITION. The accumulator family: INIT, LDACC, ABS, RDACC (spec/41_accumulator.md). -/

namespace Sys2Proof.Machine

/-- INIT: a fresh computation starts from 0; the table is not touched (R81). -/
def execInit (s : State) : Result := .next (respond .ok 0 (setAcc 0 s))

/-- LDACC: resume from any 64-bit value (R82, R16). -/
def execLdacc (v : Word) (s : State) : Result := .next (respond .ok 0 (setAcc v s))

/-- ABS: the operand check, then the lazy build, then one byte step with one read of the table, the old accumulator giving
both the index and the shifted value (R83, R80, R85). -/
def execAbs (b : Word) (s : State) : Result :=
  match byteOperand b with
  | .inRange byte =>
    readEntry (lookupIndex s.acc byte) (ensureTable s) fun entry =>
      .next (respond .ok 0 (setAcc (drainByte entry s.acc) (ensureTable s)))
  | .outOfRange => raise .invalidInput s
  | .unspecified => .refused .rangeCheckDisabled

/-- RDACC: the raw register, no final exclusive-or, no reflection (R84, R3). -/
def execRdacc (s : State) : Result := .next (respond .ok (resultData s.acc) s)

end Sys2Proof.Machine
end

