-- ==== Sys2Proof/Machine/Format.lean ====
section
/-! DEFINITION. The hexadecimal read-out: FMT (spec/43_format.md). -/

namespace Sys2Proof.Machine

/-- `digit(n)`: lowercase hexadecimal (R115). -/
def digit (n : BitVec 4) : Char :=
  match n.toNat with
  | 0 => '0' | 1 => '1' | 2 => '2' | 3 => '3' | 4 => '4' | 5 => '5' | 6 => '6' | 7 => '7'
  | 8 => '8' | 9 => '9' | 10 => 'a' | 11 => 'b' | 12 => 'c' | 13 => 'd' | 14 => 'e' | _ => 'f'

/-- The nibble of character `k`: `a[63-4k : 60-4k]` (R115). -/
def nibble (a : Word) (k : Nat) : BitVec 4 := a.extractLsb' (60 - 4 * k) 4

/-- `hex16(a)`: always 16 characters, the most significant first (R115). -/
def hex16 (a : Word) : List Char := (List.range 16).map fun k => digit (nibble a k)

/-- The 8-bit code of a character. PRESUMED by the spec: ASCII (R118; log 12). -/
def charCode (c : Char) : Byte := BitVec.ofNat 8 c.toNat

/-- Codes packed with the first in the highest byte (R117). -/
def packCodes (codes : List Byte) : Data :=
  codes.foldl (fun d c => (d <<< 8) ||| c.setWidth 128) 0

/-- FMT: read the accumulator as text; nothing but the response is written (R116). -/
def execFmt (s : State) : Result := .next (respond .ok (packCodes ((hex16 s.acc).map charCode)) s)

end Sys2Proof.Machine
end

