-- ==== Sys2Proof/Machine/Table.lean ====
section
/-! DEFINITION. The table generator family: TGEN, TRD, STAT (spec/40_table_generator.md). -/

namespace Sys2Proof.Machine

/-- TGEN: build the table if it is not built; no effect when it is (R69). -/
def execTgen (s : State) : Result := .next (respond .ok 0 (ensureTable s))

/-- TRD: the operand check, then the lazy build, then one read of the table (R70). -/
def execTrd (idx : Word) (s : State) : Result :=
  match indexOperand idx with
  | .inRange i => readEntry i (ensureTable s) fun v => .next (respond .ok (resultData v) (ensureTable s))
  | .outOfRange => raise .invalidInput s
  | .unspecified => .refused .rangeCheckDisabled

/-- STAT: read `STATUS`; it does not build the table (R71). -/
def execStat (s : State) : Result := .next (respond .ok (resultData (statusReg s)) s)

end Sys2Proof.Machine
end

