-- ==== Sys2Proof/Machine/Dispatch.lean ====
section
/-! DEFINITION. One arm per command: the dispatch of R49 after decoding. -/

namespace Sys2Proof.Machine

def exec (i : Instr) (s : State) : Host.Outcome State Fault Refusal :=
  match i with
  | .tgen => Sys2Proof.Machine.execTgen s
  | .trd idx => Sys2Proof.Machine.execTrd idx s
  | .stat => Sys2Proof.Machine.execStat s
  | .init => Sys2Proof.Machine.execInit s
  | .ldacc v => Sys2Proof.Machine.execLdacc v s
  | .abs b => Sys2Proof.Machine.execAbs b s
  | .rdacc => Sys2Proof.Machine.execRdacc s
  | .fmt => Sys2Proof.Machine.execFmt s

end Sys2Proof.Machine
end

