-- ==== Sys2Proof/Machine/Port.lean ====
section
/-! DEFINITION. The command port: what one event of the host does. Step.lean calls `takeEvent`. -/

namespace Sys2Proof.Machine

/-- `Execute(cmd)` (R49): decode the word and run the command, or raise `IllegalCommand` (R127). -/
def executeWord (w : CmdWord) (s : State) : Result :=
  match decode w with
  | .ok i => exec i s
  | .error _ => raise .illegalCommand s

/-- One event of the host, taken whole (R37). -/
def takeEvent (e : PortEvent) (s : State) : Result :=
  match e with
  | .command w => executeWord w s
  | .reset => .next (resetBlock s)
  | .resetDuring _ => .refused .commandInFlightAtReset
  | .brokenWord _ => .refused .notAWholeWord

/-- Take the oldest pending event. With nothing presented the block does nothing and keeps its state: it is always ready and
never halts (R140, R153, R154; log 3). -/
def takeNext (s : State) : Result :=
  match s.pending with
  | [] => .next s
  | e :: rest => takeEvent e { s with pending := rest }

/-- The event by which the host presents `nbits` bits `w`: a whole command word when there are 72 of them (R54), and a broken
word when there are fewer or more; a truncated word is not filled up with zeros. DESIGN CHOICE, as U7 asks (log 8). -/
def presentedAs (nbits w : Nat) : PortEvent :=
  if nbits = 72 then .command (tableWord w) else .brokenWord nbits

end Sys2Proof.Machine
end

