-- ==== Sys2Proof/Machine/Step.lean ====
section
/-! DEFINITION. One step: the block takes the next event the host presents (R37, R49). -/

namespace Sys2Proof.Machine

/-- One step of the block: the atomic execution of one command, or one reset, or nothing when nothing is presented. -/
def step (s : State) : Host.Outcome State Fault Refusal := takeNext s

/-- `s` with the word of `nbits` bits `w` presented next: there is no fetch (R17), so it goes before what the host has pending
(log 15). -/
def State.withFetchWord (s : State) (nbits w : Nat) : State :=
  { s with pending := presentedAs nbits w :: s.pending }

end Sys2Proof.Machine
end

