-- ==== Sys2Proof/Machine/Compose.lean ====
section
/-! DEFINITION. The composition engine (spec/42_composition.md): the functions `update` and `checksum` over byte sequences, and
the three pseudo-instructions, which stand for sequences of commands and have no encoding (R56). Nothing combines two
separately computed checksums (R110). -/

namespace Sys2Proof.Machine

/-- `update(a, B)`: from `a`, consume the bytes of `B` in order with the byte step (R100, R36). -/
def update (a : Word) : List Byte → Word
  | [] => a
  | b :: rest => update (byteStep a b) rest

/-- `checksum(B) = update(0, B)` (R101). -/
def checksum (bytes : List Byte) : Word := update 0 bytes

/-- `B ^ B'`, bytewise (R112). -/
def xorBytes (xs ys : List Byte) : List Byte := List.zipWith (· ^^^ ·) xs ys

/-- The pseudo-instructions, with their operands as the 64-bit integers the commands carry (R56). -/
inductive Pseudo where
  /-- ABSS: absorb a sequence (R102). -/
  | abss (operands : List Word)
  /-- UPDATE: load, absorb, read out (R103). -/
  | update (a : Word) (operands : List Word)
  /-- CHECKSUM: initialise, absorb, read out (R104). -/
  | checksum (operands : List Word)
  deriving DecidableEq, Repr

/-- The expansion of ABSS (R102). -/
def expandAbss (operands : List Word) : List Instr := operands.map Instr.abs

/-- The commands a pseudo-instruction stands for (R102, R103, R104). -/
def expand : Pseudo → List Instr
  | .abss operands => expandAbss operands
  | .update a operands => .ldacc a :: (expandAbss operands ++ [.rdacc])
  | .checksum operands => .init :: (expandAbss operands ++ [.rdacc])

/-- The operands that name a byte sequence (R48). -/
def byteOperands (bytes : List Byte) : List Word := bytes.map fun b => b.setWidth 64

end Sys2Proof.Machine
end

