-- ==== Sys2Proof/Machine/Assembler.lean ====
section
/-! DEFINITION. The textual form of commands and pseudo-instructions (R55, R56), and the listing notation of words (R57). It is
the host's side of the port: the block itself takes words only. -/

namespace Sys2Proof.Machine

/-- An operand literal (R55). -/
inductive Literal where
  /-- An unsigned integer, decimal or hexadecimal. -/
  | unsigned (n : Nat)
  /-- A negative literal `-n`. -/
  | negative (n : Nat)
  /-- A character literal. -/
  | character (c : Char)
  deriving DecidableEq, Repr

/-- Which literals stand for an operand: `n < 2^64`; `-n` with `1 <= n <= 2^63`; a character with a 7-bit code (R55). -/
def literalOk : Literal → Bool
  | .unsigned n => n < 2 ^ 64
  | .negative n => 1 ≤ n && n ≤ 2 ^ 63
  | .character c => c.toNat < 128

/-- The operand a literal stands for; `-n` stands for `2^64 - n` (R55). -/
def literalValue : Literal → Word
  | .unsigned n => BitVec.ofNat 64 n
  | .negative n => BitVec.ofNat 64 (2 ^ 64 - n)
  | .character c => BitVec.ofNat 64 c.toNat

/-- The reasons a line does not assemble. -/
inductive AsmError where
  /-- A character or string literal is malformed or left open. -/
  | badToken
  /-- The line does not begin with one of the eleven names. -/
  | unknownMnemonic
  /-- The operands do not fit the name. -/
  | badOperands
  /-- An operand is no literal of R55 or is out of its range. -/
  | badLiteral
  deriving DecidableEq, Repr

/-- The words of a line. -/
inductive Token where
  /-- A run of other characters: a mnemonic or a number. -/
  | word (cs : List Char)
  /-- A character literal. -/
  | quoted (c : Char)
  /-- A string literal. -/
  | text (cs : List Char)
  /-- The separator of operands. -/
  | comma
  deriving DecidableEq, Repr

/-- Where the scanner of a line stands. -/
inductive ScanMode where
  | between
  /-- Inside a word; its characters so far, last first. -/
  | inWord (rev : List Char)
  /-- Inside a string literal; its characters so far, last first. -/
  | inText (rev : List Char)
  /-- After the opening quote of a character literal. -/
  | charOpen
  /-- After the character of a character literal. -/
  | charBody (c : Char)
  /-- In a comment, to the end of the line. -/
  | comment
  deriving DecidableEq, Repr

/-- The tokens of a line with the word being scanned, if any, finished; last token first. -/
def finishWord (mode : ScanMode) (out : List Token) : List Token :=
  match mode with
  | .inWord rev => .word rev.reverse :: out
  | _ => out

/-- Scan one character outside literals: blanks separate, `;` starts a comment (R55). -/
def scanPlain (mode : ScanMode) (out : List Token) (c : Char) : ScanMode × List Token :=
  if c = ';' then (.comment, finishWord mode out)
  else if c = ' ' ∨ c = '\t' then (.between, finishWord mode out)
  else if c = ',' then (.between, .comma :: finishWord mode out)
  else if c = '"' then (.inText [], finishWord mode out)
  else if c = '\'' then (.charOpen, finishWord mode out)
  else
    match mode with
    | .inWord rev => (.inWord (c :: rev), out)
    | _ => (.inWord [c], out)

/-- Scan one character. DESIGN CHOICE (log 13), where R55 and R56 are silent: there is no escape inside quotes; a character
literal is the one character after its quote, whichever it is, then a quote, so three quotes write the quote character; a
string ends at the next double quote, so it holds none; `;`, `,` and blanks inside quotes are characters. -/
def scanChar (mode : ScanMode) (out : List Token) (c : Char) : Option (ScanMode × List Token) :=
  match mode with
  | .comment => some (.comment, out)
  | .inText rev => if c = '"' then some (.between, .text rev.reverse :: out) else some (.inText (c :: rev), out)
  | .charOpen => some (.charBody c, out)
  | .charBody d => if c = '\'' then some (.between, .quoted d :: out) else none
  | _ => some (scanPlain mode out c)

/-- The tokens of a line from here on, the line's own order. -/
def scanFrom (mode : ScanMode) (out : List Token) : List Char → Option (List Token)
  | [] =>
    match mode with
    | .inText _ => none
    | .charOpen => none
    | .charBody _ => none
    | _ => some (finishWord mode out).reverse
  | c :: rest =>
    match scanChar mode out c with
    | some (mode', out') => scanFrom mode' out' rest
    | none => none

/-- The value of a hexadecimal digit, of either case. DESIGN CHOICE (log 13): R55 does not say the case of a digit; no other
character is one, `_` included. -/
def hexDigitValue (c : Char) : Option Nat :=
  if '0' ≤ c ∧ c ≤ '9' then some (c.toNat - 48)
  else if 'a' ≤ c ∧ c ≤ 'f' then some (c.toNat - 87)
  else if 'A' ≤ c ∧ c ≤ 'F' then some (c.toNat - 55)
  else none

/-- The digits of a numeral in a base, the most significant first. DESIGN CHOICE (log 13): `_` is no digit and separates none;
00_scope.md section 5 allows it in the spec's own literals, and R55 does not say for an operand. -/
def numeralFrom (base : Nat) (acc : Nat) : List Char → Option Nat
  | [] => some acc
  | c :: rest =>
    match hexDigitValue c with
    | some d => if d < base then numeralFrom base (base * acc + d) rest else none
    | none => none

/-- An unsigned integer literal: decimal, or hexadecimal after `0x` (R55), any number of leading zeros allowed (log 13). -/
def numeral : List Char → Option Nat
  | [] => none
  | ['0', 'x'] => none
  | '0' :: 'x' :: digits => numeralFrom 16 0 digits
  | digits => numeralFrom 10 0 digits

/-- The literal a token writes (R55). -/
def tokenLiteral : Token → Option Literal
  | .word ('-' :: digits) => (numeral digits).map .negative
  | .word digits => (numeral digits).map .unsigned
  | .quoted c => some (.character c)
  | .text _ => none
  | .comma => none

/-- The operand a token writes, when its literal is in range (R55). -/
def tokenOperand (t : Token) : Except AsmError Word :=
  match tokenLiteral t with
  | some l => if literalOk l then .ok (literalValue l) else .error .badLiteral
  | none => .error .badLiteral

/-- Operands separated by commas, at least one. -/
def operandList : List Token → Except AsmError (List Word)
  | [] => .error .badOperands
  | [t] => (tokenOperand t).map fun w => [w]
  | t :: .comma :: rest =>
    match tokenOperand t with
    | .ok w => (operandList rest).map fun ws => w :: ws
    | .error e => .error e
  | _ :: _ :: _ => .error .badOperands

/-- The byte operands of a pseudo-instruction: none, a list, or one string literal standing for the codes of its characters in
order (R56). -/
def sequenceOperands : List Token → Except AsmError (List Word)
  | [] => .ok []
  | [.text cs] =>
    if cs.all (fun c => literalOk (.character c)) then .ok (cs.map fun c => literalValue (.character c))
    else .error .badLiteral
  | ts => operandList ts

/-- A command of format N takes no operand (R55). -/
def plainCommand (i : Instr) (ts : List Token) : Except AsmError (List Instr) :=
  match ts with
  | [] => .ok [i]
  | _ :: _ => .error .badOperands

/-- A command of format B, X or V takes one operand (R55). -/
def operandCommand (f : Word → Instr) (ts : List Token) : Except AsmError (List Instr) :=
  match ts with
  | [t] => (tokenOperand t).map fun w => [f w]
  | _ => .error .badOperands

/-- UPDATE's operands: the accumulator value, then the bytes (R56). -/
def updateCommand (ts : List Token) : Except AsmError (List Instr) :=
  match ts with
  | [t] => (tokenOperand t).map fun a => expand (.update a [])
  | t :: .comma :: u :: rest =>
    match tokenOperand t with
    | .ok a => (sequenceOperands (u :: rest)).map fun ws => expand (.update a ws)
    | .error e => .error e
  | _ => .error .badOperands

/-- The commands of a name with its operands (R55, R56). -/
def assembleTokens (name : List Char) (ts : List Token) : Except AsmError (List Instr) :=
  if name = ['T', 'G', 'E', 'N'] then plainCommand .tgen ts
  else if name = ['T', 'R', 'D'] then operandCommand .trd ts
  else if name = ['S', 'T', 'A', 'T'] then plainCommand .stat ts
  else if name = ['I', 'N', 'I', 'T'] then plainCommand .init ts
  else if name = ['L', 'D', 'A', 'C', 'C'] then operandCommand .ldacc ts
  else if name = ['A', 'B', 'S'] then operandCommand .abs ts
  else if name = ['R', 'D', 'A', 'C', 'C'] then plainCommand .rdacc ts
  else if name = ['F', 'M', 'T'] then plainCommand .fmt ts
  else if name = ['A', 'B', 'S', 'S'] then (sequenceOperands ts).map fun ws => expand (.abss ws)
  else if name = ['U', 'P', 'D', 'A', 'T', 'E'] then updateCommand ts
  else if name = ['C', 'H', 'E', 'C', 'K', 'S', 'U', 'M'] then (sequenceOperands ts).map fun ws => expand (.checksum ws)
  else .error .unknownMnemonic

/-- One line: one command or pseudo-instruction, or nothing but blanks and a comment (R55, R56). -/
def assembleLine (line : List Char) : Except AsmError (List Instr) :=
  match scanFrom .between [] line with
  | none => .error .badToken
  | some [] => .ok []
  | some (.word name :: ts) => assembleTokens name ts
  | some (_ :: _) => .error .unknownMnemonic

/-- A listing, line by line, as the commands presented to the block (R55). -/
def assemble : List (List Char) → Except AsmError (List Instr)
  | [] => .ok []
  | line :: rest =>
    match assembleLine line with
    | .ok is => (assemble rest).map fun js => is ++ js
    | .error e => .error e

/-- `n` hexadecimal digits of a value, the most significant first, lowercase as in R57's examples (log 13). -/
def hexDigits (n v : Nat) : List Char :=
  (List.range n).map fun k => digit (BitVec.ofNat 4 (v / 16 ^ (n - 1 - k)))

/-- A command word in a listing: 2 digits of `op`, a space, 16 digits of `arg` (R57). -/
def listCommand (w : CmdWord) : List Char :=
  hexDigits 2 (opField w).toNat ++ ' ' :: hexDigits 16 (argField w).toNat

/-- A response word in a listing: 2 digits of `status`, a space, 32 digits of `data` (R57). -/
def listResponse (r : Response) : List Char :=
  hexDigits 2 (statusCode r.status).toNat ++ ' ' :: hexDigits 32 r.data.toNat

end Sys2Proof.Machine
end

