-- ==== Sys2Proof/Machine/Run.lean ====
section
/-! DEFINITION. Runs (R17, R154): a finite list of commands executed from a start state, errors included. The position in the
list advances by one at each command; the result is the list of responses and the final state. -/

namespace Sys2Proof.Machine

/-- Execute the words in the order presented; the run ends when the list is exhausted (R17, R154). -/
def runWords : List CmdWord → State → Result
  | [], s => .next s
  | w :: rest, s =>
    match executeWord w s with
    | .next t => runWords rest t
    | .fault r => .fault r
    | .refused r => .refused r

/-- The words of a list of commands. -/
def encodeAll (is : List Instr) : List CmdWord := is.map encode

/-- The state with these words presented to the block and nothing else pending. -/
def presentWords (ws : List CmdWord) (s : State) : State := { s with pending := ws.map .command }

/-- The response an ABS of this operand produces (R83, R85). -/
def absorbResponse (operand : Word) : Response :=
  if operand.toNat ≤ 255 then ⟨.ok, 0⟩ else ⟨.invalidInput, 0⟩

/-- The bytes an ABSS absorbs: those of its operands that are in range (R111). -/
def absorbedBytes (operands : List Word) : List Byte :=
  (operands.filter fun w => w.toNat ≤ 255).map fun w => w.setWidth 8

end Sys2Proof.Machine
end

