-- ==== Sys2Proof/Safety.lean ====
section
/-! DEFINITION. The terms claims use: the invariant of reachable states, and what a clean run is. -/

namespace Sys2Proof.Machine

/-- Every entry of a table holds `gen` of its index (R13, R67). -/
def tableBuilt (m : Memory) : Prop := ∀ i : Byte, m.read i = some (gen i)

/-- The invariant of the block: the table is in canonical form; `tv = 1` exactly with a built table, and with `tv = 0`
nothing is listed (R13, R23). -/
structure Inv (s : State) : Prop where
  /-- The canonical form of memory. -/
  wf : s.table.wf = true
  /-- `tv = 1` means every `T[i] = gen(i)` (R13). -/
  built : s.tv = true → tableBuilt s.table
  /-- `tv = 0` means no entry has a value (R13, R23, U4). -/
  unbuilt : s.tv = false → s.table = []

/-- No response so far reports an exception. A claim about a run's result is made of clean runs, or says which responses are
not OK (D13). -/
def allOk (s : State) : Bool := s.responses.all (fun r => r.status == .ok)


/-- The state with one more response and nothing else changed: what a rejected word leaves (R128), and a read-out (R84). -/
def answered (r : Response) (s : State) : State := { s with responses := s.responses ++ [r] }

/-- The opcodes of R50. -/
def opcodes : List Byte := [0x01, 0x02, 0x03, 0x10, 0x11, 0x12, 0x13, 0x14]

/-- The opcodes of format N (R46). -/
def plainOpcodes : List Byte := [0x01, 0x03, 0x10, 0x13, 0x14]

/-- The opcodes of formats B and X (R46). -/
def rangedOpcodes : List Byte := [0x02, 0x12]

/-- The checks of R132 in their order, read off the word: the status a rejected word is answered with, or none. -/
def rejection (w : CmdWord) : Option Status :=
  if opField w ∉ opcodes then some .illegalCommand
  else if opField w ∈ plainOpcodes ∧ argField w ≠ 0 then some .illegalCommand
  else if opField w ∈ rangedOpcodes ∧ 255 < (argField w).toNat then some .invalidInput
  else none

end Sys2Proof.Machine
end

