-- ==== Sys2Proof/Certificates/Slice0/Obligations.lean ====
section
/-! DEFINITION. The statements for the provers, file by file through the rules of spec/. -/

open Sys2Proof Sys2Proof.Machine

/- ### The constant, the shift step and the table (spec/10_state.md, spec/40_table_generator.md) -/

/-- R10 (the literal is the spec's inference, log 11): `POLY` is `0xD800000000000000`, and coefficient `k` of the generator
polynomial of R1 stands at bit `63 - k`. -/
def Obligations.PolyIsTheReflectedGenerator : Prop :=
  poly = 0xD800000000000000 ∧
    ∀ k, k < 64 → poly.getLsbD (63 - k) = decide (k ∈ Config.generatorExponents)

/-- R65, bit by bit: each bit moves one place toward bit 0, bit 63 of the shifted value is 0, and `POLY` is exclusive-ored
exactly when the bit shifted out was 1. -/
def Obligations.ShiftStepMovesEveryBitTowardZero : Prop :=
  ∀ (r : Word) (i : Nat), i < 64 →
    (shiftStep r).getLsbD i = ((decide (i < 63) && r.getLsbD (i + 1)) ^^ (r.getLsbD 0 && poly.getLsbD i))

/-- R74: the shift step and the table are linear over exclusive-or, every entry is the exclusive-or of the entries of its set
bits, and the eight entries at powers of two have the values the rule lists. -/
def Obligations.ShiftStepAndTableAreLinear : Prop :=
  (∀ r s : Word, shiftStep (r ^^^ s) = shiftStep r ^^^ shiftStep s) ∧
  (∀ i j : Byte, gen (i ^^^ j) = gen i ^^^ gen j) ∧
  (∀ i : Byte, gen i =
    (List.range 8).foldl (fun acc k => if i.getLsbD k then acc ^^^ gen (1#8 <<< k) else acc) 0) ∧
  (List.range 8).map (fun k => gen (1#8 <<< k)) =
    [0x01B0000000000000, 0x0360000000000000, 0x06C0000000000000, 0x0D80000000000000,
     0x1B00000000000000, 0x3600000000000000, 0x6C00000000000000, 0xD800000000000000]

/-- R75: every entry has its low 52 bits clear, and `i -> T[i][63:56]` is a bijection of 0..255 (so the entries are distinct). -/
def Obligations.TableTopBytesAreABijection : Prop :=
  (∀ i : Byte, (gen i).extractLsb' 0 52 = 0) ∧
  (∀ i j : Byte, (gen i).extractLsb' 56 8 = (gen j).extractLsb' 56 8 → i = j) ∧
  (∀ top : Byte, ∃ i : Byte, (gen i).extractLsb' 56 8 = top)

/-- R76: the shift step is a bijection of the 64-bit values, with the inverse the rule gives. -/
def Obligations.ShiftStepIsABijection : Prop :=
  Function.Bijective shiftStep ∧
  ∀ r : Word,
    (((shiftStep r ^^^ (if (shiftStep r).getLsbD 63 then poly else 0)) <<< 1) |||
      (if (shiftStep r).getLsbD 63 then 1 else 0)) = r

/-- R68 and R72, "any order": over a table in canonical form, every order that names all 256 indices leaves the same table,
the one that lists `gen(i)` at each index in turn. -/
def Obligations.BuildOrderDoesNotMatter : Prop :=
  ∀ (order : List Byte) (m : Memory), m.wf = true → (∀ i : Byte, i ∈ order) →
    fillTable order m = (List.range 256).map fun i => (i, gen (BitVec.ofNat 8 i))

/-- R68: with `tv = 1` the procedure changes nothing; with `tv = 0` it leaves `tv = 1` and `gen` in all 256 entries, and
changes nothing else. -/
def Obligations.EnsureTableBuildsOnce : Prop :=
  ∀ s : State,
    (s.tv = true → ensureTable s = s) ∧
    (s.tv = false → ∃ table : Memory, (∀ i : Byte, table.read i = some (gen i)) ∧
      ensureTable s = { s with tv := true, table := table })

/-- R69, with R66 and R67: TGEN answers OK with data 0 and touches neither `ACC` nor the port; with `tv = 0` it sets `tv` and
writes into every entry eight shift steps of its index; with `tv = 1` it has no effect. A nonzero `arg` is `IllegalCommand` and
nothing is built. -/
def Obligations.TgenBuildsTheTable : Prop :=
  ∀ s : State,
    (s.tv = true → exec .tgen s = .next (answered ⟨.ok, 0⟩ s)) ∧
    (s.tv = false → ∃ table : Memory,
      (∀ v : Byte, table.read v = some (shiftStep^[8] (v.setWidth 64))) ∧
      exec .tgen s = .next (answered ⟨.ok, 0⟩ { s with tv := true, table := table })) ∧
    decode 0x010000000000000000 = .ok .tgen ∧
    ∀ arg : Word, arg ≠ 0 →
      executeWord (0x01#8 ++ arg) s = .next (answered ⟨.illegalCommand, 0⟩ s)

/-- R70: TRD of an index 0..255 answers OK with the built entry zero-extended, building the table first when `tv = 0`; a larger
operand is `InvalidInput`, with no build. -/
def Obligations.TrdReturnsTheEntry : Prop :=
  ∀ (s : State) (idx : Word), decode (0x02#8 ++ idx) = .ok (.trd idx) ∧
    (idx.toNat ≤ 255 → Inv s → ∃ table : Memory, tableBuilt table ∧ (s.tv = true → table = s.table) ∧
      exec (.trd idx) s =
        .next (answered ⟨.ok, (gen (idx.setWidth 8)).setWidth 128⟩ { s with tv := true, table := table })) ∧
    (255 < idx.toNat → exec (.trd idx) s = .next (answered ⟨.invalidInput, 0⟩ s))

/-- R73, at the port: TRD 0 returns 0 and TRD 128 returns `POLY`. -/
def Obligations.TrdSpotValues : Prop :=
  ∀ s : State, Inv s →
    (∃ t, executeWord 0x020000000000000000 s = .next t ∧ t.responses = s.responses ++ [⟨.ok, 0⟩]) ∧
    (∃ t, executeWord 0x020000000000000080 s = .next t ∧
      t.responses = s.responses ++ [⟨.ok, 0xD800000000000000⟩])

/-- R71 and R19: STAT answers OK with `STATUS`, whose bit 0 is `tv` and whose other bits are 0, and changes nothing else; a
nonzero `arg` is `IllegalCommand`. -/
def Obligations.StatReadsTheStatusRegister : Prop :=
  ∀ s : State,
    (∀ i, (statusReg s).getLsbD i = (decide (i = 0) && s.tv)) ∧
    exec .stat s = .next (answered ⟨.ok, (statusReg s).setWidth 128⟩ s) ∧
    decode 0x030000000000000000 = .ok .stat ∧
    ∀ arg : Word, arg ≠ 0 →
      executeWord (0x03#8 ++ arg) s = .next (answered ⟨.illegalCommand, 0⟩ s)

/- ### The accumulator (spec/41_accumulator.md) -/

/-- R81: INIT puts 0 in `ACC`, answers OK with data 0 and changes nothing else; a nonzero `arg` is `IllegalCommand` and `ACC`
is unchanged. -/
def Obligations.InitClearsTheAccumulator : Prop :=
  ∀ s : State,
    exec .init s = .next (answered ⟨.ok, 0⟩ { s with acc := 0 }) ∧
    decode 0x100000000000000000 = .ok .init ∧
    ∀ arg : Word, arg ≠ 0 →
      executeWord (0x10#8 ++ arg) s = .next (answered ⟨.illegalCommand, 0⟩ s)

/-- R82: LDACC puts any 64-bit value in `ACC`, answers OK with data 0 and changes nothing else. -/
def Obligations.LdaccLoadsTheAccumulator : Prop :=
  ∀ (s : State) (v : Word), decode (0x11#8 ++ v) = .ok (.ldacc v) ∧
    exec (.ldacc v) s = .next (answered ⟨.ok, 0⟩ { s with acc := v })

/-- R83 and R85, with the value of R80: ABS of a byte leaves `T[(ACC ^ b)[7:0]] ^ (ACC >> 8)` in `ACC`, both from the old
`ACC`, building the table first when `tv = 0`; an operand above 255 is `InvalidInput` with nothing changed and no build. -/
def Obligations.AbsAbsorbsOneByte : Prop :=
  ∀ (s : State) (b : Word), decode (0x12#8 ++ b) = .ok (.abs b) ∧
    (b.toNat ≤ 255 → Inv s → ∃ table : Memory, tableBuilt table ∧ (s.tv = true → table = s.table) ∧
      exec (.abs b) s = .next (answered ⟨.ok, 0⟩
        { s with acc := gen ((s.acc ^^^ b).setWidth 8) ^^^ (s.acc >>> 8), tv := true, table := table })) ∧
    (255 < b.toNat → exec (.abs b) s = .next (answered ⟨.invalidInput, 0⟩ s))

/-- R84 and R58: RDACC answers OK with the raw register zero-extended and changes nothing else; a nonzero `arg` is
`IllegalCommand`. -/
def Obligations.RdaccReadsTheAccumulator : Prop :=
  ∀ s : State,
    exec .rdacc s = .next (answered ⟨.ok, s.acc.setWidth 128⟩ s) ∧
    decode 0x130000000000000000 = .ok .rdacc ∧
    ∀ arg : Word, arg ≠ 0 →
      executeWord (0x13#8 ++ arg) s = .next (answered ⟨.illegalCommand, 0⟩ s)

/-- R86: the table-driven step equals eight bit-serial steps, and depends on the byte only through `a ^ b`. -/
def Obligations.ByteStepIsEightShiftSteps : Prop :=
  ∀ (a : Word) (b : Byte),
    byteStep a b = shiftStep^[8] (a ^^^ b.setWidth 64) ∧
    byteStep a b = byteStep (a ^^^ b.setWidth 64) 0

/-- R88: for each byte the step is a bijection; the top byte of the result names the table index, and from the index the old
accumulator is recovered as the rule says. -/
def Obligations.ByteStepIsABijection : Prop :=
  ∀ b : Byte, Function.Bijective (fun a => byteStep a b) ∧
    ∀ a : Word, ∃ idx : Byte,
      (gen idx).extractLsb' 56 8 = (byteStep a b).extractLsb' 56 8 ∧
      a.extractLsb' 8 56 = (byteStep a b ^^^ gen idx).extractLsb' 0 56 ∧
      a.extractLsb' 0 8 = idx ^^^ b

/-- R89 and R90: the step is linear in the pair, and a zero byte into a zero accumulator leaves it zero. -/
def Obligations.ByteStepIsLinear : Prop :=
  (∀ (a a' : Word) (b b' : Byte), byteStep (a ^^^ a') (b ^^^ b') = byteStep a b ^^^ byteStep a' b') ∧
  byteStep 0 0 = 0

/- ### Composition (spec/42_composition.md) -/

/-- R105, R106, R107: chunks compose, for any number of cuts and any lengths, empty ones too. -/
def Obligations.ChunksCompose : Prop :=
  (∀ (a : Word) (xs ys : List Byte), update (update a xs) ys = update a (xs ++ ys)) ∧
  (∀ xs ys : List Byte, checksum (xs ++ ys) = update (checksum xs) ys) ∧
  (∀ a : Word, update a [] = a) ∧ checksum [] = 0

/-- R112: `update` is linear over sequences of equal length, the initial value and the data separate, the first byte may be
folded into the accumulator, and for fixed data it is a bijection. -/
def Obligations.UpdateIsLinear : Prop :=
  (∀ (a a' : Word) (xs ys : List Byte), xs.length = ys.length →
    update (a ^^^ a') (xorBytes xs ys) = update a xs ^^^ update a' ys) ∧
  (∀ (a : Word) (xs : List Byte), update a xs = update a (List.replicate xs.length 0) ^^^ update 0 xs) ∧
  (∀ (a : Word) (b : Byte) (xs : List Byte), update a (b :: xs) = update (a ^^^ b.setWidth 64) (0 :: xs)) ∧
  (∀ xs : List Byte, Function.Bijective (fun a => update a xs))

/-- R113: two sequences of equal length that differ in exactly one bit have different results from every start, and leading
zero bytes do not change a checksum. -/
def Obligations.OneBitChangesTheChecksum : Prop :=
  (∀ (a : Word) (before after : List Byte) (b : Byte) (k : Nat), k < 8 →
    update a (before ++ b :: after) ≠ update a (before ++ (b ^^^ (1#8 <<< k)) :: after)) ∧
  (∀ (m : Nat) (xs : List Byte), checksum (List.replicate m 0 ++ xs) = checksum xs)

/-- R102 and R111, over any operands: every ABS of the expansion of ABSS runs; those in range are absorbed in order and
answered OK, those out of range are answered INVALID_INPUT and change nothing; the table is built when one is absorbed. -/
def Obligations.AbssAbsorbsTheBytesInRange : Prop :=
  ∀ (operands : List Word) (s : State), Inv s →
    ∃ t, runWords (encodeAll (expand (.abss operands))) s = .next t ∧
      t.acc = update s.acc (absorbedBytes operands) ∧
      t.responses = s.responses ++ operands.map absorbResponse ∧
      t.tv = (s.tv || decide (absorbedBytes operands ≠ [])) ∧
      t.pending = s.pending ∧ Inv t

/-- R103: with all bytes in range, UPDATE's last response is `update(a, B)` and `ACC` holds it; and where `ACC` already holds
`a`, leaving out the LDACC changes neither. -/
def Obligations.UpdateExpansionComputesUpdate : Prop :=
  ∀ (a : Word) (bytes : List Byte) (s : State), Inv s →
    (∃ t, runWords (encodeAll (expand (.update a (byteOperands bytes)))) s = .next t ∧
      t.acc = update a bytes ∧ t.responses.getLast? = some ⟨.ok, (update a bytes).setWidth 128⟩) ∧
    (s.acc = a →
      ∃ t, runWords (encodeAll (expandAbss (byteOperands bytes) ++ [.rdacc])) s = .next t ∧
        t.acc = update a bytes ∧ t.responses.getLast? = some ⟨.ok, (update a bytes).setWidth 128⟩)

/-- R104: with all bytes in range, CHECKSUM's last response is `checksum(B)`, and CHECKSUM B and UPDATE 0, B end in the same
state with the same responses. -/
def Obligations.ChecksumExpansionComputesChecksum : Prop :=
  ∀ (bytes : List Byte) (s : State), Inv s →
    ∃ t, runWords (encodeAll (expand (.checksum (byteOperands bytes)))) s = .next t ∧
      t.acc = checksum bytes ∧ t.responses.getLast? = some ⟨.ok, (checksum bytes).setWidth 128⟩ ∧
      runWords (encodeAll (expand (.update 0 (byteOperands bytes)))) s = .next t

/-- R106 and R119 at the port: CHECKSUM of a first part, UPDATE of its result with the second, then FMT, gives the text that
CHECKSUM of the whole then FMT gives. -/
def Obligations.ChunkedFormatEqualsOneShotFormat : Prop :=
  ∀ (xs ys : List Byte) (s : State), Inv s →
    ∃ t u,
      runWords (encodeAll (expand (.checksum (byteOperands xs)) ++
        expand (.update (checksum xs) (byteOperands ys)) ++ [.fmt])) s = .next t ∧
      runWords (encodeAll (expand (.checksum (byteOperands (xs ++ ys))) ++ [.fmt])) s = .next u ∧
      t.acc = u.acc ∧ t.responses.getLast? = u.responses.getLast?

/-- R109: a stream suspended by RDACC and resumed by LDACC of the value returned ends as if never interrupted, whatever words
other users present in between. -/
def Obligations.SuspendedStreamResumes : Prop :=
  ∀ (xs ys : List Byte) (other : List CmdWord) (s : State), Inv s →
    ∃ t u v,
      runWords (encodeAll (expand (.checksum (byteOperands xs)))) s = .next t ∧
      t.responses.getLast? = some ⟨.ok, t.acc.setWidth 128⟩ ∧
      runWords other t = .next u ∧
      runWords (encodeAll (expand (.update t.acc (byteOperands ys)))) u = .next v ∧
      v.responses.getLast? = some ⟨.ok, (checksum (xs ++ ys)).setWidth 128⟩

/- ### The hexadecimal read-out (spec/43_format.md) -/

/-- R115: 16 characters, each a decimal digit or a lowercase letter a to f; the string read as a base-16 numeral is the value;
so the value is recovered from the string. -/
def Obligations.HexStringIsTheNumeral : Prop :=
  (∀ a : Word, (hex16 a).length = 16 ∧
    (∀ c ∈ hex16 a, ('0' ≤ c ∧ c ≤ '9') ∨ ('a' ≤ c ∧ c ≤ 'f')) ∧
    numeralFrom 16 0 (hex16 a) = some a.toNat) ∧
  Function.Injective hex16

/-- R116, R117, with the ASCII codes of R118 (general knowledge, log 12): FMT answers OK with character `k`'s code in `data[127-8k : 120-8k]`, the code of the nibble
`ACC[63-4k : 60-4k]`, and changes nothing else; a nonzero `arg` is `IllegalCommand`. -/
def Obligations.FmtReturnsTheCharacterCodes : Prop :=
  ∀ s : State,
    (∃ d : Data, exec .fmt s = .next (answered ⟨.ok, d⟩ s) ∧
      ∀ k, k < 16 → (d.extractLsb' (120 - 8 * k) 8).toNat =
        if (s.acc.extractLsb' (60 - 4 * k) 4).toNat ≤ 9 then 0x30 + (s.acc.extractLsb' (60 - 4 * k) 4).toNat
        else 0x57 + (s.acc.extractLsb' (60 - 4 * k) 4).toNat) ∧
    decode 0x140000000000000000 = .ok .fmt ∧
    ∀ arg : Word, arg ≠ 0 →
      executeWord (0x14#8 ++ arg) s = .next (answered ⟨.illegalCommand, 0⟩ s)

/- ### Encoding (spec/30_encoding.md) -/

/-- R45 and R50: decoding the word of any command gives the command back, with its operand at every 64-bit value. -/
def Obligations.DecodeOfEncode : Prop := ∀ i : Instr, decode (encode i) = .ok i

/-- R45 and R50, the other direction: a word that decodes is the word of the command it decodes to. -/
def Obligations.EncodeOfDecode : Prop := ∀ (w : CmdWord) (i : Instr), decode w = .ok i → encode i = w

/-- R50's match and mask table: a word selects at most one row; a word that decodes selects the row of its command's opcode;
a word that is rejected selects no row. -/
def Obligations.DecoderFollowsTheMaskTable : Prop :=
  ∀ w : CmdWord,
    (∀ r ∈ opcodeRows, ∀ r' ∈ opcodeRows, r.selects w = true → r'.selects w = true → r = r') ∧
    (∀ i, decode w = .ok i → ∃ r ∈ opcodeRows, r.selects w = true ∧ r.opcode = opcode i) ∧
    (∀ e, decode w = .error e → ∀ r ∈ opcodeRows, r.selects w = false)

/-- R51 and R52: a reserved opcode whatever its `arg`, and a format N command with a nonzero `arg`, are rejected by the decoder
and answered `IllegalCommand` with data 0, and no state changes. -/
def Obligations.ReservedWordsAreRejected : Prop :=
  ∀ (w : CmdWord) (s : State),
    (opField w ∉ opcodes →
      decode w = .error .reservedOpcode ∧ executeWord w s = .next (answered ⟨.illegalCommand, 0⟩ s)) ∧
    (opField w ∈ plainOpcodes → argField w ≠ 0 →
      decode w = .error .nonzeroOperand ∧ executeWord w s = .next (answered ⟨.illegalCommand, 0⟩ s))

/-- U12: in a block without FMT, opcode 0x14 is reserved and every other word decodes as it does with FMT. -/
def Obligations.WithoutFmtItsOpcodeIsReserved : Prop :=
  ∀ w : CmdWord,
    (opField w = 0x14 → decodeFor false w = .error .reservedOpcode) ∧
    (opField w ≠ 0x14 → decodeFor false w = decodeFor true w)

/-- R47, R125, R58: the response word's two fields, and the three status codes. -/
def Obligations.ResponseWordFields : Prop :=
  (∀ r : Response, (responseWord r).extractLsb' 128 8 = statusCode r.status ∧
    (responseWord r).extractLsb' 0 128 = r.data) ∧
  statusCode .ok = 0x00 ∧ statusCode .invalidInput = 0x01 ∧ statusCode .illegalCommand = 0x02

/-- A few words written out from R50 decode to the commands they stand for, and V20's illegal words to none. -/
def Obligations.SampleWordsDecode : Prop :=
  decode 0x010000000000000000 = .ok .tgen ∧ decode 0x0200000000000000ff = .ok (.trd 255) ∧
  decode 0x030000000000000000 = .ok .stat ∧ decode 0x100000000000000000 = .ok .init ∧
  decode 0x116b02c5f720300000 = .ok (.ldacc 0x6B02C5F720300000) ∧ decode 0x120000000000000049 = .ok (.abs 0x49) ∧
  decode 0x130000000000000000 = .ok .rdacc ∧ decode 0x140000000000000000 = .ok .fmt ∧
  decode 0x920000000000000049 = .error .reservedOpcode ∧ decode 0x100000000000000001 = .error .nonzeroOperand

/-- R55: a negative literal `-n` with `1 <= n <= 2^63` stands for `2^64 - n`, which the byte check of ABS and the index check of TRD
reject. -/
def Obligations.NegativeLiteralsAreOutOfRange : Prop :=
  ∀ n : Nat, 1 ≤ n → n ≤ 2 ^ 63 →
    literalOk (.negative n) = true ∧ (literalValue (.negative n)).toNat = 2 ^ 64 - n ∧
    ∀ s : State, exec (.abs (literalValue (.negative n))) s = .next (answered ⟨.invalidInput, 0⟩ s) ∧
      exec (.trd (literalValue (.negative n))) s = .next (answered ⟨.invalidInput, 0⟩ s)

/-- R57: a command word is listed as 2 hexadecimal digits, a space and 16 digits, which read as numerals, the most significant
digit first, are `op` and `arg`; a response word as 2 digits, a space and 32 digits, which are the code of its status and its
`data`; so each word is recovered from its listing. -/
def Obligations.ListingsNameTheirWords : Prop :=
  (∀ w : CmdWord, ∃ op arg : List Char, listCommand w = op ++ ' ' :: arg ∧ op.length = 2 ∧ arg.length = 16 ∧
    numeralFrom 16 0 op = some (opField w).toNat ∧ numeralFrom 16 0 arg = some (argField w).toNat) ∧
  Function.Injective listCommand ∧
  (∀ r : Response, ∃ status data : List Char, listResponse r = status ++ ' ' :: data ∧
    status.length = 2 ∧ data.length = 32 ∧
    numeralFrom 16 0 status = some (statusCode r.status).toNat ∧ numeralFrom 16 0 data = some r.data.toNat) ∧
  Function.Injective listResponse

/- ### Exceptions (spec/60_exceptions.md) -/

/-- R132, with R126, R127, R128: a word that fails a check is answered with the status of that check and data 0, and nothing
else changes, in every state. -/
def Obligations.RejectedWordsOnlyRespond : Prop :=
  ∀ (w : CmdWord) (st : Status) (s : State), rejection w = some st →
    executeWord w s = .next (answered ⟨st, 0⟩ s)

/-- R132 (4), R130 and R155: a word that passes the checks executes and is answered OK; it cannot fail. -/
def Obligations.AcceptedWordsAnswerOk : Prop :=
  ∀ (w : CmdWord) (s : State), rejection w = none → Inv s →
    ∃ t d, executeWord w s = .next t ∧ t.responses = s.responses ++ [⟨.ok, d⟩]

/-- R47 and R151: a command that answers produces exactly one response, after all earlier ones; its data is 0 when its status
is not OK and for TGEN, INIT, LDACC and ABS; what the host has still to present is untouched. -/
def Obligations.OneResponsePerCommand : Prop :=
  ∀ (w : CmdWord) (s t : State), executeWord w s = .next t →
    t.pending = s.pending ∧
    ∃ r : Response, t.responses = s.responses ++ [r] ∧ (r.status ≠ .ok → r.data = 0) ∧
      (opField w ∈ [0x01#8, 0x10#8, 0x11#8, 0x12#8] → r.data = 0)

/-- R133 and R134: a rejected word anywhere in a run leaves the block and every other response exactly as if it had not been
presented. -/
def Obligations.RejectedWordIsAsIfNotPresented : Prop :=
  ∀ (before after : List CmdWord) (w : CmdWord) (st : Status) (s : State), Inv s → rejection w = some st →
    ∃ t u earlier later,
      runWords (before ++ w :: after) s = .next t ∧ runWords (before ++ after) s = .next u ∧
      t.acc = u.acc ∧ t.tv = u.tv ∧ t.table = u.table ∧ t.pending = u.pending ∧
      u.responses = s.responses ++ earlier ++ later ∧ earlier.length = before.length ∧
      t.responses = s.responses ++ earlier ++ ⟨st, 0⟩ :: later

/- ### The machine as a whole: state, port, reset, runs -/

/-- The invariant every step keeps: with `tv = 1` every `T[i]` is `gen(i)` (R13). Its other two parts are the model's
representation, no rule of the spec, which leaves the contents unspecified while `tv = 0` (R13, R23): that with `tv = 0` no
entry has a value is log 4 (DEDUCED), and the canonical form of the table is log 5 (DEDUCED). -/
def Obligations.StepKeepsTheInvariant : Prop :=
  ∀ s t : State, Inv s → step s = .next t → Inv t

/-- The invariant holds right after reset; that no entry of `T` has a value there is the model's representation (log 4), and so
is the canonical form of the table (log 5). -/
def Obligations.ResetMeetsTheInvariant : Prop := Inv State.reset

/-- R21 and R22: after reset `ACC = 0`, `tv = 0` and `STATUS = 0`. -/
def Obligations.ResetValues : Prop :=
  State.reset.acc = 0 ∧ State.reset.tv = false ∧ statusReg State.reset = 0

/-- R145, from any state: the reset event puts 0 in `ACC` and `tv`; it produces no response, and what the host presents after it
is still to come. That no entry of `T` has a value afterwards is the model's representation (log 4). -/
def Obligations.ResetEventClearsTheBlock : Prop :=
  ∀ (s : State) (rest : List PortEvent), s.pending = .reset :: rest →
    ∃ t, step s = .next t ∧ t.acc = 0 ∧ t.tv = false ∧ (∀ i : Byte, t.table.read i = none) ∧
      t.responses = s.responses ∧ t.pending = rest

/-- R145, its last sentence: the table built after a reset is the table that was there before it. -/
def Obligations.RebuiltTableIsTheSame : Prop :=
  ∀ s : State, Inv s → s.tv = true →
    ∃ t, exec .tgen (resetBlock s) = .next t ∧ t.table = s.table

/-- R147: after a reset from any state, RDACC as first command returns 0, and ABS of a byte as first command gives
`ACC = T[b]` after building the table. -/
def Obligations.FirstCommandsAfterReset : Prop :=
  ∀ (s : State) (b : Byte),
    (∃ t, executeWord 0x130000000000000000 (resetBlock s) = .next t ∧
      t.responses = s.responses ++ [⟨.ok, 0⟩]) ∧
    (∃ t, executeWord (0x12#8 ++ b.setWidth 64) (resetBlock s) = .next t ∧
      t.acc = gen b ∧ t.tv = true ∧ tableBuilt t.table)

/-- R15 over all commands and reset: only INIT, LDACC, ABS (and reset) write `ACC`; every other command leaves it alone, and so
does an ABS that is rejected. -/
def Obligations.OnlyTheAccumulatorCommandsWriteAcc : Prop :=
  (∀ (i : Instr) (s t : State), exec i s = .next t → t.acc ≠ s.acc →
    (i = .init ∧ t.acc = 0) ∨ (∃ v, i = .ldacc v ∧ t.acc = v) ∨
    (∃ b, i = .abs b ∧ b.toNat ≤ 255 ∧ t.responses = s.responses ++ [⟨.ok, 0⟩])) ∧
  (∀ (e : PortEvent) (s t : State), takeEvent e s = .next t → t.acc ≠ s.acc →
    e = .reset ∨ ∃ w i, e = .command w ∧ decode w = .ok i ∧ exec i s = .next t)

/-- The frame over the table space and `tv`: STAT, INIT, LDACC, RDACC and FMT leave `tv` and every entry alone; TGEN, TRD and
ABS leave them alone when `tv = 1` and when they are rejected, and otherwise set `tv` and leave `gen` in all 256 entries. No
command touches what is pending, and each appends one response (R12, R68, R128). -/
def Obligations.TableFrame : Prop :=
  ∀ (i : Instr) (s t : State), exec i s = .next t →
    t.pending = s.pending ∧ (∃ r, t.responses = s.responses ++ [r]) ∧
    ((i = .stat ∨ i = .init ∨ (∃ v, i = .ldacc v) ∨ i = .rdacc ∨ i = .fmt) →
      t.tv = s.tv ∧ ∀ a : Byte, t.table.read a = s.table.read a) ∧
    (s.tv = true → t.tv = true ∧ ∀ a : Byte, t.table.read a = s.table.read a) ∧
    (s.tv = false →
      (t.tv = true ↔ i = .tgen ∨ (∃ x, i = .trd x ∧ x.toNat ≤ 255) ∨ (∃ b, i = .abs b ∧ b.toNat ≤ 255)) ∧
      (t.tv = true → ∀ a : Byte, t.table.read a = some (gen a)) ∧
      (t.tv = false → ∀ a : Byte, t.table.read a = s.table.read a))

/-- R12 and R13 over every event: while `tv = 1` nothing writes the table; `tv` goes from 0 to 1 only with all 256 entries
written in the same step; only reset takes it from 1 to 0. -/
def Obligations.TableIsWrittenOncePerReset : Prop :=
  ∀ (e : PortEvent) (s t : State), takeEvent e s = .next t → e ≠ .reset →
    (s.tv = true → t.tv = true ∧ t.table = s.table) ∧
    (s.tv = false → t.tv = false → t.table = s.table) ∧
    (s.tv = false → t.tv = true → tableBuilt t.table)

/-- R49 and R17: a step takes the word presented next, off the front of what is pending, and runs the command it decodes to in
the state that is left; an illegal word takes its place in the order too, and is answered `IllegalCommand`. In every state,
whatever is pending, a word placed by `withFetchWord`, the model's own (log 15), is the one the next step runs. -/
def Obligations.StepRunsTheDecodedCommand : Prop :=
  ∀ (s : State) (w : CmdWord),
    (∀ rest : List PortEvent, s.pending = .command w :: rest →
      (∀ i, decode w = .ok i → step s = exec i { s with pending := rest }) ∧
      (∀ e, decode w = .error e → step s = .next (answered ⟨.illegalCommand, 0⟩ { s with pending := rest }))) ∧
    (∀ i, decode w = .ok i →
      decodeTableWord 72 w.toNat = some i ∧ step (s.withFetchWord 72 w.toNat) = exec i s) ∧
    (∀ e, decode w = .error e →
      decodeTableWord 72 w.toNat = none ∧
      step (s.withFetchWord 72 w.toNat) = .next (answered ⟨.illegalCommand, 0⟩ s))

/-- The model's choice, log 3: with nothing presented a step leaves the state as it is (the block does nothing, R153). -/
def Obligations.IdleStepChangesNothing : Prop :=
  ∀ s : State, s.pending = [] → step s = .next s

/-- The model's choices, logs 7 and 8: the two events whose outcome the spec leaves unspecified (U6, U7) are refused by name. A
word of any other number of bits than 72, truncated or over-long, is such an event, and no command. -/
def Obligations.UnspecifiedEventsAreRefused : Prop :=
  (∀ (s : State) (rest : List PortEvent),
    (∀ w, s.pending = .resetDuring w :: rest → step s = .refused .commandInFlightAtReset) ∧
    (∀ n, s.pending = .brokenWord n :: rest → step s = .refused .notAWholeWord)) ∧
  ∀ (s : State) (n w : Nat), n ≠ 72 →
    step (s.withFetchWord n w) = .refused .notAWholeWord ∧ decodeTableWord n w = none

/-- R20 and R13: through every command but STAT, what the host sees depends on `ACC` alone. Two blocks with equal `ACC`, one
built and one not, answer every run without STAT with the same responses and end with equal `ACC`. -/
def Obligations.TableValidFlagIsInvisibleButToStat : Prop :=
  ∀ (ws : List CmdWord) (s s' : State), Inv s → Inv s' → s.acc = s'.acc → s.responses = s'.responses →
    (∀ w ∈ ws, decode w ≠ .ok .stat) →
    ∃ t t', runWords ws s = .next t ∧ runWords ws s' = .next t' ∧
      t.acc = t'.acc ∧ t.responses = t'.responses

/-- R20, the other half: two blocks with equal `ACC` and equal `tv` are indistinguishable by any run, STAT included. -/
def Obligations.AccAndTvDetermineEveryRun : Prop :=
  ∀ (ws : List CmdWord) (s s' : State), Inv s → Inv s' →
    s.acc = s'.acc → s.tv = s'.tv → s.responses = s'.responses →
    ∃ t t', runWords ws s = .next t ∧ runWords ws s' = .next t' ∧
      t.acc = t'.acc ∧ t.tv = t'.tv ∧ t.table = t'.table ∧ t.responses = t'.responses

/-- R148: a host may issue TGEN first or never; every later command but STAT gives the same result either way. -/
def Obligations.BuildingAtStartupChangesNoResult : Prop :=
  ∀ (ws : List CmdWord) (s : State), Inv s → (∀ w ∈ ws, decode w ≠ .ok .stat) →
    ∃ t u later, runWords (encode .tgen :: ws) s = .next t ∧ runWords ws s = .next u ∧ t.acc = u.acc ∧
      t.responses = s.responses ++ ⟨.ok, 0⟩ :: later ∧ u.responses = s.responses ++ later

/-- R17 and R154: a run over a list of words is that many steps of the machine with the words pending; each step takes the
position one further, errors included, until the list is exhausted. -/
def Obligations.RunIsOneStepPerWord : Prop :=
  ∀ (ws : List CmdWord) (s : State),
    core.run ws.length (presentWords ws s) = runWords ws { s with pending := [] }

/-- R155 and R151: a run of `n` words ends after `n` commands, each answered: `n` responses, in order, after those before. -/
def Obligations.EveryRunEndsAndAnswersEachWord : Prop :=
  ∀ (ws : List CmdWord) (s : State), Inv s →
    ∃ t answers, runWords ws s = .next t ∧ t.responses = s.responses ++ answers ∧
      answers.length = ws.length ∧ t.pending = s.pending ∧ Inv t
end

