-- ==== Sys2Proof/Laws/Memory.lean ====
section
/-! SUPPORT. The laws of the table space: a read after a write, the canonical form every operation keeps, and that tables in
canonical form with equal reads are equal data. -/

namespace Sys2Proof.Machine

theorem Memory.find_put_same (a : Nat) (v : Word) (m : Memory) : (m.put a v).find a = some v := by
  induction m with
  | nil => simp [Memory.put, Memory.find]
  | cons c rest ih =>
    obtain ⟨k, w⟩ := c
    rw [Memory.put]
    split
    · simp [Memory.find]
    · split
      · simp [Memory.find]
      · rw [Memory.find, if_neg (fun h => by omega), ih]

theorem Memory.find_put_other {a b : Nat} (h : a ≠ b) (v : Word) (m : Memory) :
    (m.put a v).find b = m.find b := by
  induction m with
  | nil => simp [Memory.put, Memory.find, h]
  | cons c rest ih =>
    obtain ⟨k, w⟩ := c
    rw [Memory.put]
    split
    · rw [Memory.find, if_neg h]
    · split
      · subst a; simp [Memory.find, h]
      · simp only [Memory.find, ih]

/-- A write is read back from its own entry. -/
@[simp] theorem Memory.read_write_same (m : Memory) (i : Byte) (v : Word) : (m.write i v).read i = some v :=
  Memory.find_put_same _ _ _

/-- A write leaves every other entry alone. -/
theorem Memory.read_write_other (m : Memory) {i j : Byte} (h : i ≠ j) (v : Word) :
    (m.write i v).read j = m.read j :=
  Memory.find_put_other (fun e => h (BitVec.eq_of_toNat_eq e)) _ _

theorem Memory.wfFrom_put (a : Nat) (v : Word) (ha : a < 256) (m : Memory) :
    ∀ lo, lo ≤ a → Memory.wfFrom lo m = true → Memory.wfFrom lo (m.put a v) = true := by
  induction m with
  | nil => intro lo hlo _; simp [Memory.put, Memory.wfFrom, Config.tableEntries, hlo, ha]
  | cons c rest ih =>
    obtain ⟨k, w⟩ := c
    intro lo hlo hwf
    simp only [Memory.wfFrom, Bool.and_eq_true, decide_eq_true_eq, Config.tableEntries] at hwf
    rw [Memory.put]
    split
    · simp [Memory.wfFrom, Config.tableEntries, hlo, ha, hwf]; omega
    · split
      · subst a; simp [Memory.wfFrom, Config.tableEntries, hwf]
      · simp [Memory.wfFrom, Config.tableEntries, hwf]
        exact ih (k + 1) (by omega) hwf.2

/-- A write keeps the canonical form. -/
theorem Memory.wf_write {m : Memory} (h : m.wf = true) (i : Byte) (v : Word) : (m.write i v).wf = true :=
  Memory.wfFrom_put _ _ i.isLt _ 0 (Nat.zero_le _) h

/-- The writes of a build keep the canonical form. -/
theorem wf_fillTable (order : List Byte) : ∀ m : Memory, m.wf = true → (fillTable order m).wf = true := by
  induction order with
  | nil => intro m h; exact h
  | cons i rest ih => intro m h; exact ih _ (Memory.wf_write h i _)

/-- What a build in some order leaves in each entry. -/
theorem read_fillTable (i : Byte) (order : List Byte) :
    ∀ m : Memory, (fillTable order m).read i = if i ∈ order then some (gen i) else m.read i := by
  induction order with
  | nil => intro m; simp [fillTable]
  | cons j rest ih =>
    intro m
    have hstep : fillTable (j :: rest) m = fillTable rest (m.write j (gen j)) := rfl
    rw [hstep, ih]
    by_cases hr : i ∈ rest
    · simp [hr]
    · by_cases hij : j = i
      · subst j; simp [hr]
      · simp [hr, Ne.symm hij, Memory.read_write_other m hij]

theorem Memory.find_of_wfFrom_lt {a : Nat} (m : Memory) :
    ∀ lo, a < lo → Memory.wfFrom lo m = true → m.find a = none := by
  induction m with
  | nil => intro lo _ _; rfl
  | cons c rest ih =>
    obtain ⟨k, w⟩ := c
    intro lo hlt hwf
    simp only [Memory.wfFrom, Bool.and_eq_true, decide_eq_true_eq] at hwf
    rw [Memory.find, if_neg (by omega)]
    exact ih (k + 1) (by omega) hwf.2

theorem Memory.eq_of_find (m : Memory) :
    ∀ (lo : Nat) (m' : Memory), Memory.wfFrom lo m = true → Memory.wfFrom lo m' = true →
      (∀ a, m.find a = m'.find a) → m = m' := by
  induction m with
  | nil =>
    intro lo m' _ _ heq
    cases m' with
    | nil => rfl
    | cons c rest => have := heq c.1; simp [Memory.find] at this
  | cons c rest ih =>
    obtain ⟨k, w⟩ := c
    intro lo m' hwf hwf' heq
    cases m' with
    | nil => have := heq k; simp [Memory.find] at this
    | cons c' rest' =>
      obtain ⟨k', w'⟩ := c'
      have hw := hwf
      have hw' := hwf'
      simp only [Memory.wfFrom, Bool.and_eq_true, decide_eq_true_eq] at hw hw'
      have hk : k = k' := by
        have h1 := heq k
        have h2 := heq k'
        simp only [Memory.find, if_true] at h1 h2
        rcases Nat.lt_trichotomy k k' with h | h | h
        · rw [if_neg (by omega), Memory.find_of_wfFrom_lt rest' (k' + 1) (by omega) hw'.2] at h1
          cases h1
        · exact h
        · rw [if_neg (by omega), Memory.find_of_wfFrom_lt rest (k + 1) (by omega) hw.2] at h2
          cases h2
      subst k'
      have hv : w = w' := by have := heq k; simpa [Memory.find] using this
      subst w'
      have hr : rest = rest' := by
        refine ih (k + 1) rest' hw.2 hw'.2 fun a => ?_
        by_cases ha : k = a
        · subst a
          rw [Memory.find_of_wfFrom_lt rest (k + 1) (by omega) hw.2,
            Memory.find_of_wfFrom_lt rest' (k + 1) (by omega) hw'.2]
        · have := heq a
          simpa [Memory.find, ha] using this
      rw [hr]

theorem Memory.find_of_wfFrom_ge {a : Nat} (ha : 256 ≤ a) (m : Memory) :
    ∀ lo, Memory.wfFrom lo m = true → m.find a = none := by
  induction m with
  | nil => intro lo _; rfl
  | cons c rest ih =>
    obtain ⟨k, w⟩ := c
    intro lo hwf
    simp only [Memory.wfFrom, Bool.and_eq_true, decide_eq_true_eq] at hwf
    have hk : k < 256 := hwf.1.2
    rw [Memory.find, if_neg (by omega)]
    exact ih (k + 1) hwf.2

/-- Tables in canonical form that read alike are the same data. -/
theorem Memory.eq_of_read {m m' : Memory} (h : m.wf = true) (h' : m'.wf = true)
    (heq : ∀ i : Byte, m.read i = m'.read i) : m = m' := by
  refine Memory.eq_of_find m 0 m' h h' fun a => ?_
  by_cases ha : a < 256
  · have := heq (BitVec.ofNat 8 a)
    have hn : (BitVec.ofNat 8 a).toNat = a := by simp; omega
    simpa [Memory.read, hn] using this
  · rw [Memory.find_of_wfFrom_ge (by omega) m 0 h, Memory.find_of_wfFrom_ge (by omega) m' 0 h']

/-- The build's order names every index. -/
theorem mem_buildOrder (i : Byte) : i ∈ buildOrder := by
  simp only [buildOrder, List.mem_reverse, List.mem_map, List.mem_range]
  exact ⟨i.toNat, i.isLt, by simp⟩

end Sys2Proof.Machine
end

