-- ==== Sys2Proof/Laws/State.lean ====
section
/-! SUPPORT. What each update of the state leaves in each field: one lemma per field per update, so that no proof unfolds a
record update. -/

namespace Sys2Proof.Machine

section
variable (st : Status) (d : Data) (v : Word) (s : State) (nbits w : Nat) (ws : List CmdWord)

@[simp] theorem respond_acc : (respond st d s).acc = s.acc := rfl
@[simp] theorem respond_tv : (respond st d s).tv = s.tv := rfl
@[simp] theorem respond_table : (respond st d s).table = s.table := rfl
@[simp] theorem respond_pending : (respond st d s).pending = s.pending := rfl
@[simp] theorem respond_responses : (respond st d s).responses = s.responses ++ [⟨st, d⟩] := rfl

@[simp] theorem setAcc_acc : (setAcc v s).acc = v := rfl
@[simp] theorem setAcc_tv : (setAcc v s).tv = s.tv := rfl
@[simp] theorem setAcc_table : (setAcc v s).table = s.table := rfl
@[simp] theorem setAcc_pending : (setAcc v s).pending = s.pending := rfl
@[simp] theorem setAcc_responses : (setAcc v s).responses = s.responses := rfl

@[simp] theorem resetBlock_acc : (resetBlock s).acc = 0 := rfl
@[simp] theorem resetBlock_tv : (resetBlock s).tv = false := rfl
@[simp] theorem resetBlock_table : (resetBlock s).table = [] := rfl
@[simp] theorem resetBlock_pending : (resetBlock s).pending = s.pending := rfl
@[simp] theorem resetBlock_responses : (resetBlock s).responses = s.responses := rfl

/-- 72 bits are presented as the command word they are. -/
@[simp] theorem presentedAs_whole (c : CmdWord) : presentedAs 72 c.toNat = .command c := by
  simp [presentedAs, tableWord]
/-- Any other number of bits is presented as a broken word (U7; log 8). -/
theorem presentedAs_broken (h : nbits ≠ 72) : presentedAs nbits w = .brokenWord nbits := if_neg h

@[simp] theorem withFetchWord_acc : (s.withFetchWord nbits w).acc = s.acc := rfl
@[simp] theorem withFetchWord_tv : (s.withFetchWord nbits w).tv = s.tv := rfl
@[simp] theorem withFetchWord_table : (s.withFetchWord nbits w).table = s.table := rfl
@[simp] theorem withFetchWord_pending : (s.withFetchWord nbits w).pending = presentedAs nbits w :: s.pending := rfl
@[simp] theorem withFetchWord_responses : (s.withFetchWord nbits w).responses = s.responses := rfl

@[simp] theorem presentWords_acc : (presentWords ws s).acc = s.acc := rfl
@[simp] theorem presentWords_tv : (presentWords ws s).tv = s.tv := rfl
@[simp] theorem presentWords_table : (presentWords ws s).table = s.table := rfl
@[simp] theorem presentWords_pending : (presentWords ws s).pending = ws.map .command := rfl
@[simp] theorem presentWords_responses : (presentWords ws s).responses = s.responses := rfl

@[simp] theorem ensureTable_acc : (ensureTable s).acc = s.acc := by unfold ensureTable; split <;> rfl
@[simp] theorem ensureTable_tv : (ensureTable s).tv = true := by
  unfold ensureTable; split
  · assumption
  · rfl
@[simp] theorem ensureTable_pending : (ensureTable s).pending = s.pending := by unfold ensureTable; split <;> rfl
@[simp] theorem ensureTable_responses : (ensureTable s).responses = s.responses := by
  unfold ensureTable; split <;> rfl

theorem ensureTable_of_valid (h : s.tv = true) : ensureTable s = s := by simp [ensureTable, h]

theorem ensureTable_of_invalid (h : s.tv = false) :
    ensureTable s = { s with tv := true, table := fillTable buildOrder s.table } := by simp [ensureTable, h]

theorem ensureTable_table_of_invalid (h : s.tv = false) :
    (ensureTable s).table = fillTable buildOrder s.table := by simp [ensureTable, h]

end

end Sys2Proof.Machine
end

