-- ==== Sys2Proof/Laws/Ops.lean ====
section
/-! SUPPORT. One lemma for each shared operation: all it can do, so that later proofs cite it and do not unfold it. -/

namespace Sys2Proof.Machine

/-- After `EnsureTable()` the table of a state that meets the invariant is built and in canonical form. -/
theorem ensureTable_built {s : State} (h : Inv s) :
    tableBuilt (ensureTable s).table ∧ (ensureTable s).table.wf = true := by
  by_cases ht : s.tv = true
  · rw [ensureTable_of_valid s ht]; exact ⟨h.built ht, h.wf⟩
  · rw [Bool.not_eq_true] at ht
    rw [ensureTable_table_of_invalid s ht]
    exact ⟨fun i => by rw [read_fillTable, if_pos (mem_buildOrder i)], wf_fillTable _ _ h.wf⟩

/-- A read after `EnsureTable()` finds the generated entry. -/
theorem readEntry_ensureTable {s : State} (h : Inv s) (i : Byte) (go : Word → Result) :
    readEntry i (ensureTable s) go = go (gen i) := by
  rw [readEntry, (ensureTable_built h).1 i]

/-- A read that goes on found an entry. -/
theorem readEntry_next {i : Byte} {s t : State} {go : Word → Result} (h : readEntry i s go = .next t) :
    ∃ v, s.table.read i = some v ∧ go v = .next t := by
  unfold readEntry at h
  split at h
  · exact ⟨_, ‹_›, h⟩
  · cases h

/-- Raising an exception answers, and appends one response with data 0. -/
theorem raise_eq (e : Exception) (s : State) : raise e s = .next (respond (exceptionStatus e) 0 s) := rfl

theorem highBits_eq_zero_iff (arg : Word) : arg.extractLsb' 8 56 = 0 ↔ arg.toNat ≤ 255 := by
  rw [← BitVec.toNat_inj]
  have := arg.isLt
  simp only [BitVec.extractLsb'_toNat, Nat.shiftRight_eq_div_pow, BitVec.ofNat_eq_ofNat, BitVec.toNat_ofNat]
  omega

theorem lowBits_eq_setWidth (arg : Word) : arg.extractLsb' 0 8 = arg.setWidth 8 := by
  apply BitVec.eq_of_toNat_eq
  simp

/-- The range check passes exactly the operands 0..255, and hands on their low byte. -/
theorem checkRange_of_le {arg : Word} (h : arg.toNat ≤ 255) : checkRange arg = .inRange (arg.setWidth 8) := by
  rw [checkRange, if_pos ((highBits_eq_zero_iff arg).2 h), lowBits_eq_setWidth]

theorem checkRange_of_gt {arg : Word} (h : 255 < arg.toNat) : checkRange arg = .outOfRange := by
  rw [checkRange, if_neg (fun e => by have := (highBits_eq_zero_iff arg).1 e; omega)]

theorem byteOperand_eq (arg : Word) : byteOperand arg = checkRange arg := rfl

theorem indexOperand_eq (arg : Word) : indexOperand arg = checkRange arg := rfl

/-- The invariant does not speak of the port or of the accumulator. -/
theorem Inv.of_fields {s t : State} (h : Inv s) (htv : t.tv = s.tv) (htable : t.table = s.table) : Inv t where
  wf := by rw [htable]; exact h.wf
  built := by rw [htv, htable]; exact h.built
  unbuilt := by rw [htv, htable]; exact h.unbuilt

theorem Inv.ensureTable {s : State} (h : Inv s) : Inv (ensureTable s) where
  wf := (ensureTable_built h).2
  built := fun _ => (ensureTable_built h).1
  unbuilt := fun h' => by simp at h'

/-- TRD of an index in range answers with the generated entry, from the state with the table built. -/
theorem execTrd_of_le {s : State} {idx : Word} (hs : Inv s) (h : idx.toNat ≤ 255) :
    execTrd idx s = .next (respond .ok (resultData (gen (idx.setWidth 8))) (Machine.ensureTable s)) := by
  simp only [execTrd, indexOperand_eq, checkRange_of_le h, readEntry_ensureTable hs]

/-- ABS of a byte in range absorbs it with the generated entry, in the state with the table built. -/
theorem execAbs_of_le {s : State} {b : Word} (hs : Inv s) (h : b.toNat ≤ 255) :
    execAbs b s = .next (respond .ok 0
      (setAcc (drainByte (gen (lookupIndex s.acc (b.setWidth 8))) s.acc) (Machine.ensureTable s))) := by
  simp only [execAbs, byteOperand_eq, checkRange_of_le h, readEntry_ensureTable hs]

end Sys2Proof.Machine
end

