-- ==== Sys2Proof/Laws/Words.lean ====
section
/-! SUPPORT. The two fields of the command word, and a word as the two together (R45). -/

namespace Sys2Proof

@[simp] theorem opField_append (op : Byte) (arg : Word) : opField (op ++ arg) = op := by
  apply BitVec.eq_of_getLsbD_eq
  intro i hi
  simp only [opField, BitVec.getLsbD_extractLsb', BitVec.getLsbD_append]
  simp [hi]

@[simp] theorem argField_append (op : Byte) (arg : Word) : argField (op ++ arg) = arg := by
  apply BitVec.eq_of_getLsbD_eq
  intro i hi
  simp only [argField, BitVec.getLsbD_extractLsb', BitVec.getLsbD_append]
  simp [hi]

/-- A word is its opcode field followed by its operand field. -/
theorem opField_append_argField (w : CmdWord) : opField w ++ argField w = w := by
  apply BitVec.eq_of_getLsbD_eq
  intro i hi
  simp only [opField, argField, BitVec.getLsbD_append, BitVec.getLsbD_extractLsb']
  by_cases h : i < 64
  · simp [h]
  · have : i - 64 < 8 := by omega
    simp [h, this, show 64 + (i - 64) = i by omega]

end Sys2Proof
end

