-- ==== Sys2Proof/Laws/PerInstr.lean ====
section
/-! SUPPORT. Facts about every command as syntax, one lemma per constructor. -/

namespace Sys2Proof.Laws.EncodeFields

/-- The encoder puts the opcode of R50 in `op` and the operand in `arg`. -/
def Statement (i : Instr) : Prop := opField (encode i) = opcode i ∧ argField (encode i) = i.operand

theorem fields (i : Instr) : Statement i := ⟨opField_append _ _, argField_append _ _⟩

theorem tgen : Statement .tgen := fields _
theorem trd (idx : Word) : Statement (.trd idx) := fields _
theorem stat : Statement .stat := fields _
theorem init : Statement .init := fields _
theorem ldacc (v : Word) : Statement (.ldacc v) := fields _
theorem abs (b : Word) : Statement (.abs b) := fields _
theorem rdacc : Statement .rdacc := fields _
theorem fmt : Statement .fmt := fields _

end Sys2Proof.Laws.EncodeFields
end

