-- ==== Sys2Proof/Tests/Slice0.lean ====
section
/-! SUPPORT. The model's own tests. Expected values are those of spec/95_test_vectors.md and of the rules' examples; the words
are written out from R50. Each step test is one step on a small state. Last, a witness for the hypotheses of each statement. -/

namespace Sys2Proof.Tests

open Sys2Proof.Machine

/-- The reset state with a value in `ACC`, the table not built. -/
def freshAt (a : Word) : State := { State.reset with acc := a }

/-- The same with the table built. -/
def builtAt (a : Word) : State := ensureTable (freshAt a)

/-- One step on a word presented to a state. -/
def stepOn (w : CmdWord) (s : State) : Result := step { s with pending := [.command w] }

/-- The last response, `ACC` and `tv` of the state a step answers. -/
def seen : Result → Option (Option Response × Word × Bool)
  | .next t => some (t.responses.getLast?, t.acc, t.tv)
  | _ => none

/-! ### Decoding: words written out bit by bit from R45 and R50 (V20) -/

theorem test_decode_tgen : decode (0b00000001#8 ++ 0#64) = .ok .tgen := by rfl
theorem test_decode_trd : decode (0b00000010#8 ++ 0xff#64) = .ok (.trd 255) := by rfl
theorem test_decode_stat : decode (0b00000011#8 ++ 0#64) = .ok .stat := by rfl
theorem test_decode_init : decode (0b00010000#8 ++ 0#64) = .ok .init := by rfl
theorem test_decode_ldacc : decode 0x11_ffffffffffffffff = .ok (.ldacc 0xFFFFFFFFFFFFFFFF) := by rfl
theorem test_decode_abs : decode 0x12_0000000000000100 = .ok (.abs 256) := by rfl
theorem test_decode_rdacc : decode (0b00010011#8 ++ 0#64) = .ok .rdacc := by rfl
theorem test_decode_fmt : decode (0b00010100#8 ++ 0#64) = .ok .fmt := by rfl
theorem test_decode_reserved : decode 0x00_0000000000000000 = .error .reservedOpcode ∧
    decode 0x04_0000000000000000 = .error .reservedOpcode ∧ decode 0x15_0000000000000000 = .error .reservedOpcode ∧
    decode 0x92_0000000000000049 = .error .reservedOpcode := ⟨rfl, rfl, rfl, rfl⟩
theorem test_decode_nonzero : decode 0x01_0000000000000001 = .error .nonzeroOperand ∧
    decode 0x03_8000000000000000 = .error .nonzeroOperand := ⟨rfl, rfl⟩
theorem test_encode_abs : encode (.abs 0x49) = 0x12_0000000000000049 := by decide
theorem test_decodeTableWord : decodeTableWord 72 0x116b02c5f720300000 = some (.ldacc 0x6B02C5F720300000) ∧
    decodeTableWord 72 0x150000000000000000 = none ∧ decodeTableWord 80 0x120000000000000049 = none ∧
    decodeTableWord 65 0x010000000000000000 = none := by decide

/-! ### Well-formedness: a term each check refuses (R46, R55) -/

theorem test_wf_abs : (Instr.abs 255).wellFormed = true ∧ (Instr.abs 256).wellFormed = false := by decide
theorem test_wf_trd : (Instr.trd 255).wellFormed = true ∧ (Instr.trd 256).wellFormed = false := by decide
theorem test_wf_plain : Format.n.legal 0 = true ∧ Format.n.legal 1 = false := by decide
theorem test_wf_value : (Instr.ldacc 0xFFFFFFFFFFFFFFFF).wellFormed = true := by decide
theorem test_wf_literal : literalOk (.unsigned (2 ^ 64)) = false ∧ literalOk (.negative 0) = false ∧
    literalOk (.negative (2 ^ 63 + 1)) = false ∧ literalOk (.character 'é') = false := by decide

/-! ### Arithmetic (V10, V11, V13, V6, V14, V17) -/

theorem test_shiftStep : shiftStep 0 = 0 ∧ shiftStep 1 = 0xD800000000000000 ∧ shiftStep 3 = 0xD800000000000001 ∧
    shiftStep 0x8000000000000000 = 0x4000000000000000 ∧ shiftStep 0xFFFFFFFFFFFFFFFF = 0xA7FFFFFFFFFFFFFF := by decide
theorem test_gen : gen 0 = 0 ∧ gen 1 = 0x01B0000000000000 ∧ gen 127 = 0x4890000000000000 ∧
    gen 128 = 0xD800000000000000 ∧ gen 255 = 0x9090000000000000 := by decide
theorem test_byteStep : byteStep 1 1 = 0 ∧ byteStep 0x0123456789ABCDEF 0x42 = 0xE4F123456789ABCD ∧
    byteStep 0xFFFFFFFFFFFFFFFF 0 = 0x906FFFFFFFFFFFFF := by decide
theorem test_checksum_ILOVEMATH :
    checksum [0x49, 0x4C, 0x4F, 0x56, 0x45, 0x4D, 0x41, 0x54, 0x48] = 0x57DCADD69B02C5F7 := by decide +kernel
theorem test_checksum_check_string :
    checksum [0x31, 0x32, 0x33, 0x34, 0x35, 0x36, 0x37, 0x38, 0x39] = 0x46A5A9388A5BEFFE := by decide +kernel
theorem test_update_abc : update 0x0123456789ABCDEF [0x61, 0x62, 0x63] = 0xB967402123456789 := by decide +kernel

/-! ### One step per command (V12, V19, P1 to P5) -/

theorem test_tgen : seen (stepOn 0x01_0000000000000000 State.reset) = some (some ⟨.ok, 0⟩, 0, true) := by decide
theorem test_tgen_again : seen (stepOn 0x01_0000000000000000 (builtAt 7)) = some (some ⟨.ok, 0⟩, 7, true) := by
  decide
theorem test_trd_lazy : seen (stepOn 0x02_0000000000000080 State.reset) =
    some (some ⟨.ok, 0xD800000000000000⟩, 0, true) := by decide +kernel
theorem test_trd_range : seen (stepOn 0x02_0000000000000100 State.reset) =
    some (some ⟨.invalidInput, 0⟩, 0, false) := by decide
theorem test_stat_unbuilt : seen (stepOn 0x03_0000000000000000 State.reset) = some (some ⟨.ok, 0⟩, 0, false) := by
  decide
theorem test_stat_built : seen (stepOn 0x03_0000000000000000 (builtAt 0)) = some (some ⟨.ok, 1⟩, 0, true) := by
  decide
theorem test_init : seen (stepOn 0x10_0000000000000000 (freshAt 0x57DCADD69B02C5F7)) =
    some (some ⟨.ok, 0⟩, 0, false) := by decide
theorem test_init_nonzero : seen (stepOn 0x10_0000000000000001 (freshAt 5)) =
    some (some ⟨.illegalCommand, 0⟩, 5, false) := by decide
theorem test_ldacc : seen (stepOn 0x11_6b02c5f720300000 State.reset) =
    some (some ⟨.ok, 0⟩, 0x6B02C5F720300000, false) := by decide
theorem test_abs_lazy : seen (stepOn 0x12_0000000000000042 (freshAt 0x0123456789ABCDEF)) =
    some (some ⟨.ok, 0⟩, 0xE4F123456789ABCD, true) := by decide +kernel
theorem test_abs_range : seen (stepOn 0x12_ffffffffffffffff (freshAt 0x0123456789ABCDEF)) =
    some (some ⟨.invalidInput, 0⟩, 0x0123456789ABCDEF, false) := by decide
theorem test_rdacc : seen (stepOn 0x13_0000000000000000 (freshAt 0x57DCADD69B02C5F7)) =
    some (some ⟨.ok, 0x57DCADD69B02C5F7⟩, 0x57DCADD69B02C5F7, false) := by decide
theorem test_fmt : seen (stepOn 0x14_0000000000000000 (freshAt 0x57DCADD69B02C5F7)) =
    some (some ⟨.ok, 0x35376463616464363962303263356637⟩, 0x57DCADD69B02C5F7, false) := by decide +kernel
theorem test_fmt_zero_padded : seen (stepOn 0x14_0000000000000000 (freshAt 0x01B0000000000000)) =
    some (some ⟨.ok, 0x30316230303030303030303030303030⟩, 0x01B0000000000000, false) := by decide +kernel
theorem test_reserved_word : seen (stepOn 0xff_ffffffffffffffff (freshAt 9)) =
    some (some ⟨.illegalCommand, 0⟩, 9, false) := by decide
theorem test_withFetchWord : seen (step (State.reset.withFetchWord 72 0x116b02c5f720300000)) =
    some (some ⟨.ok, 0⟩, 0x6B02C5F720300000, false) := by decide
theorem test_truncated_word : step (State.reset.withFetchWord 65 0x010000000000000000) = .refused .notAWholeWord ∧
    step (State.reset.withFetchWord 73 0x010000000000000000) = .refused .notAWholeWord := ⟨rfl, rfl⟩
theorem test_reset_event : seen (step { builtAt 7 with pending := [.reset] }) = some (none, 0, false) := by decide
theorem test_idle : step (freshAt 7) = .next (freshAt 7) := by rfl
theorem test_response_word : responseWord ⟨.invalidInput, 0⟩ = 0x01_00000000000000000000000000000000 ∧
    responseWord ⟨.ok, 0x57DCADD69B02C5F7⟩ = 0x00_000000000000000057dcadd69b02c5f7 := by decide

/-! ### The listing and the textual form (R55, R56, R57, P1) -/

theorem test_list_command : listCommand 0x12_0000000000000049 =
    ['1', '2', ' ', '0', '0', '0', '0', '0', '0', '0', '0', '0', '0', '0', '0', '0', '0', '4', '9'] := by
  decide +kernel
theorem test_assemble_negative : assembleLine ['A', 'B', 'S', ' ', '-', '1'] =
    .ok [.abs 0xFFFFFFFFFFFFFFFF] := by decide +kernel
theorem test_assemble_abss :
    assembleLine ['A', 'B', 'S', 'S', ' ', '\'', 'I', '\'', ',', ' ', '0', 'x', '4', 'c', ' ', ';', ' ', '!'] =
      .ok [.abs 0x49, .abs 0x4C] := by decide +kernel
theorem test_assemble_checksum :
    assembleLine ['C', 'H', 'E', 'C', 'K', 'S', 'U', 'M', ' ', '"', 'I', 'L', '"'] =
      .ok [.init, .abs 0x49, .abs 0x4C, .rdacc] := by decide +kernel
theorem test_assemble_update : assembleLine ['U', 'P', 'D', 'A', 'T', 'E', ' ', '7', ',', '1'] =
    .ok [.ldacc 7, .abs 1, .rdacc] := by decide +kernel
theorem test_assemble_refuses :
    assembleLine ['T', 'G', 'E', 'N', ' ', '1'] = .error .badOperands ∧
    assembleLine ['A', 'B', 'S', ' ', '1', 'f'] = .error .badLiteral ∧
    assembleLine ['a', 'b', 's', ' ', '1'] = .error .unknownMnemonic := by decide +kernel

/-! ### Witnesses: concrete states and operands that meet the hypotheses of each statement -/

theorem inv_freshAt (a : Word) : Inv (freshAt a) where
  wf := rfl
  built := fun h => by cases h
  unbuilt := fun _ => rfl

theorem inv_builtAt (a : Word) : Inv (builtAt a) := (inv_freshAt a).ensureTable

theorem builtAt_tv (a : Word) : (builtAt a).tv = true := ensureTable_tv _

theorem witness_ShiftStepMovesEveryBitTowardZero : 63 < 64 ∧ 0 < 64 := by decide
theorem witness_PolyIsTheReflectedGenerator : 63 < 64 ∧ 0 < 64 := by decide
theorem witness_TableTopBytesAreABijection :
    (gen 0x80).extractLsb' 56 8 = (gen (0x7f + 1)).extractLsb' 56 8 := by decide
/-- The ascending order, over a table in canonical form that lists something. -/
theorem witness_BuildOrderDoesNotMatter :
    Memory.wf [(255, 7)] = true ∧ ∀ i : Byte, i ∈ (List.range 256).map (BitVec.ofNat 8) :=
  ⟨by decide, fun i => List.mem_map.2 ⟨i.toNat, List.mem_range.2 i.isLt, by simp⟩⟩
theorem witness_EnsureTableBuildsOnce : (builtAt 7).tv = true ∧ (freshAt 7).tv = false := ⟨builtAt_tv 7, rfl⟩
theorem witness_TgenBuildsTheTable : (builtAt 7).tv = true ∧ (freshAt 7).tv = false ∧ (1 : Word) ≠ 0 :=
  ⟨builtAt_tv 7, rfl, by decide⟩
theorem witness_TrdReturnsTheEntry :
    (255 : Word).toNat ≤ 255 ∧ Inv (builtAt 7) ∧ (builtAt 7).tv = true ∧ 255 < (256 : Word).toNat :=
  ⟨by decide, inv_builtAt 7, builtAt_tv 7, by decide⟩
theorem witness_TrdSpotValues : Inv (freshAt 7) ∧ Inv (builtAt 7) := ⟨inv_freshAt 7, inv_builtAt 7⟩
/-- The nonzero `arg` of the statements about STAT, INIT, RDACC (and of those about TGEN and FMT). -/
theorem witness_nonzero_operand : (1 : Word) ≠ 0 ∧ (0x8000000000000000 : Word) ≠ 0 := by decide
theorem witness_AbsAbsorbsOneByte :
    (255 : Word).toNat ≤ 255 ∧ Inv (builtAt 7) ∧ (builtAt 7).tv = true ∧ 255 < (256 : Word).toNat :=
  ⟨by decide, inv_builtAt 7, builtAt_tv 7, by decide⟩
theorem witness_UpdateIsLinear : [1#8, 2#8].length = [3#8, 0#8].length := by decide
theorem witness_OneBitChangesTheChecksum : 0 < 8 ∧ 7 < 8 := by decide
theorem witness_AbssAbsorbsTheBytesInRange : Inv (freshAt 7) := inv_freshAt 7
theorem witness_UpdateExpansionComputesUpdate : Inv (freshAt 7) ∧ (freshAt 7).acc = 7 := ⟨inv_freshAt 7, rfl⟩
theorem witness_ChecksumExpansionComputesChecksum : Inv (builtAt 7) := inv_builtAt 7
theorem witness_ChunkedFormatEqualsOneShotFormat : Inv (builtAt 7) := inv_builtAt 7
theorem witness_SuspendedStreamResumes : Inv (freshAt 7) := inv_freshAt 7
theorem witness_FmtReturnsTheCharacterCodes : 0 < 16 ∧ 15 < 16 ∧ (1 : Word) ≠ 0 := by decide
theorem witness_EncodeOfDecode : decode 0x12_0000000000000100 = .ok (.abs 256) := by rfl
theorem witness_DecoderFollowsTheMaskTable :
    (∃ r ∈ opcodeRows, r.selects 0x12_0000000000000049 = true) ∧ decode 0x12_0000000000000049 = .ok (.abs 0x49) ∧
    decode 0x15_0000000000000000 = .error .reservedOpcode := ⟨by decide, rfl, rfl⟩
theorem witness_ReservedWordsAreRejected :
    opField 0x15_0000000000000000 ∉ opcodes ∧ opField 0x14_0000000000000001 ∈ plainOpcodes ∧
    argField 0x14_0000000000000001 ≠ 0 := by decide
theorem witness_WithoutFmtItsOpcodeIsReserved :
    opField 0x14_0000000000000000 = 0x14 ∧ opField 0x13_0000000000000000 ≠ 0x14 := by decide
theorem witness_NegativeLiteralsAreOutOfRange : 1 ≤ 1 ∧ 1 ≤ 2 ^ 63 ∧ 2 ^ 63 ≤ 2 ^ 63 := by decide
theorem witness_RejectedWordsOnlyRespond :
    rejection 0x00_0000000000000000 = some .illegalCommand ∧ rejection 0x10_0000000000000001 = some .illegalCommand ∧
    rejection 0x12_0000000000000100 = some .invalidInput := by decide
theorem witness_AcceptedWordsAnswerOk :
    rejection 0x12_00000000000000ff = none ∧ rejection 0x11_ffffffffffffffff = none ∧ Inv (freshAt 7) :=
  ⟨by decide, by decide, inv_freshAt 7⟩
theorem witness_OneResponsePerCommand :
    executeWord 0x10_0000000000000000 (freshAt 7) = .next (respond .ok 0 (setAcc 0 (freshAt 7))) ∧
    opField 0x10_0000000000000000 ∈ [0x01#8, 0x10#8, 0x11#8, 0x12#8] ∧
    executeWord 0x00_0000000000000000 (freshAt 7) = .next (respond .illegalCommand 0 (freshAt 7)) :=
  ⟨rfl, by decide, rfl⟩
theorem witness_RejectedWordIsAsIfNotPresented :
    Inv (freshAt 7) ∧ rejection 0x02_0000000000000100 = some .invalidInput := ⟨inv_freshAt 7, by decide⟩
theorem witness_StepKeepsTheInvariant :
    Inv (freshAt 7) ∧ step { freshAt 7 with pending := [.reset] } = .next (freshAt 0) := ⟨inv_freshAt 7, rfl⟩
theorem witness_ResetEventClearsTheBlock :
    ({ builtAt 7 with pending := [.reset, .command 0] } : State).pending = .reset :: [.command 0] := rfl
theorem witness_RebuiltTableIsTheSame : Inv (builtAt 7) ∧ (builtAt 7).tv = true := ⟨inv_builtAt 7, builtAt_tv 7⟩
theorem witness_OnlyTheAccumulatorCommandsWriteAcc :
    exec .init (freshAt 7) = .next (respond .ok 0 (setAcc 0 (freshAt 7))) ∧
    exec (.ldacc 9) (freshAt 7) = .next (respond .ok 0 (setAcc 9 (freshAt 7))) ∧
    takeEvent .reset (freshAt 7) = .next (freshAt 0) ∧ (0 : Word) ≠ 7 ∧ (9 : Word) ≠ 7 ∧
    seen (exec (.abs 1) (freshAt 0)) = some (some ⟨.ok, 0⟩, 0x01B0000000000000, true) :=
  ⟨rfl, rfl, rfl, by decide, by decide, by decide +kernel⟩
theorem exec_tgen_freshAt (a : Word) : exec .tgen (freshAt a) = .next (respond .ok 0 (builtAt a)) := by
  rw [exec, execTgen, builtAt]

theorem witness_TableFrame :
    exec .tgen (freshAt 7) = .next (respond .ok 0 (builtAt 7)) ∧ (freshAt 7).tv = false ∧ (builtAt 7).tv = true ∧
    exec .stat (freshAt 7) = .next (respond .ok 0 (freshAt 7)) ∧
    exec .init (builtAt 7) = .next (respond .ok 0 (setAcc 0 (builtAt 7))) :=
  ⟨exec_tgen_freshAt 7, rfl, builtAt_tv 7, rfl, by rw [exec, execInit]⟩
/-- The operands at the edge of the range: 255 builds the table, 256 is rejected. -/
theorem witness_TableFrame_operands :
    (∃ t, exec (.trd 255) (freshAt 7) = .next t ∧ t.tv = true) ∧
    (∃ t, exec (.abs 255) (freshAt 7) = .next t ∧ t.tv = true) ∧
    exec (.trd 256) (freshAt 7) = .next (respond .invalidInput 0 (freshAt 7)) := by
  refine ⟨⟨_, by rw [exec, execTrd_of_le (inv_freshAt 7) (by decide)], ?_⟩,
    ⟨_, by rw [exec, execAbs_of_le (inv_freshAt 7) (by decide)], ?_⟩,
    by rw [exec, execTrd, indexOperand_eq, checkRange_of_gt (by decide)]; rfl⟩
  · rw [respond_tv, ensureTable_tv]
  · rw [respond_tv, setAcc_tv, ensureTable_tv]
theorem witness_TableIsWrittenOncePerReset :
    takeEvent (.command 0x01_0000000000000000) (freshAt 7) = .next (respond .ok 0 (builtAt 7)) ∧
    (.command 0x01_0000000000000000 : PortEvent) ≠ .reset ∧ (freshAt 7).tv = false ∧
    (respond .ok 0 (builtAt 7)).tv = true ∧
    takeEvent (.command 0x13_0000000000000000) (builtAt 7) =
      .next (respond .ok (resultData (builtAt 7).acc) (builtAt 7)) ∧
    takeEvent (.command 0x13_0000000000000000) (freshAt 7) =
      .next (respond .ok (resultData (freshAt 7).acc) (freshAt 7)) := by
  have h (s : State) : takeEvent (.command 0x13_0000000000000000) s = .next (respond .ok (resultData s.acc) s) := rfl
  refine ⟨?_, by decide, rfl, builtAt_tv 7, h _, h _⟩
  rw [takeEvent, executeWord, show decode 0x01_0000000000000000 = .ok .tgen from rfl]
  exact exec_tgen_freshAt 7
theorem witness_StepRunsTheDecodedCommand :
    ({ freshAt 7 with pending := [.command 0x13_0000000000000000] } : State).pending =
      .command 0x13_0000000000000000 :: [] ∧
    decode 0x13_0000000000000000 = .ok .rdacc ∧ decode 0x00_0000000000000000 = .error .reservedOpcode :=
  ⟨rfl, rfl, rfl⟩
theorem witness_IdleStepChangesNothing : (builtAt 7).pending = [] := ensureTable_pending _
theorem witness_UnspecifiedEventsAreRefused :
    ({ freshAt 7 with pending := [.resetDuring 0] } : State).pending = .resetDuring 0 :: [] ∧
    ({ freshAt 7 with pending := [.brokenWord 71] } : State).pending = .brokenWord 71 :: [] ∧
    71 ≠ 72 ∧ 73 ≠ 72 := ⟨rfl, rfl, by decide, by decide⟩
theorem noStat_of_instrs {is : List Instr} (h : is.all (fun i => decide (decode (encode i) ≠ .ok .stat)) = true) :
    ∀ w ∈ encodeAll is, decode w ≠ .ok .stat := by
  intro w hw
  obtain ⟨i, hi, rfl⟩ := List.mem_map.1 hw
  exact of_decide_eq_true (List.all_eq_true.1 h i hi)

/-- One block built and one not, equal `ACC` and responses, and a run without STAT. -/
theorem witness_TableValidFlagIsInvisibleButToStat :
    Inv (freshAt 7) ∧ Inv (builtAt 7) ∧ (freshAt 7).acc = (builtAt 7).acc ∧
    (freshAt 7).responses = (builtAt 7).responses ∧
    ∀ w ∈ encodeAll [.abs 1, .rdacc], decode w ≠ .ok .stat :=
  ⟨inv_freshAt 7, inv_builtAt 7, (ensureTable_acc _).symm, (ensureTable_responses _).symm,
    noStat_of_instrs (by decide)⟩
/-- Two built blocks, one of them with events still pending. -/
theorem witness_AccAndTvDetermineEveryRun :
    Inv (builtAt 7) ∧ Inv (presentWords [0] (builtAt 7)) ∧
    (presentWords [0] (builtAt 7)).acc = (builtAt 7).acc ∧ (presentWords [0] (builtAt 7)).tv = (builtAt 7).tv ∧
    (presentWords [0] (builtAt 7)).responses = (builtAt 7).responses := by
  have h := inv_builtAt 7
  generalize builtAt 7 = s at h
  exact ⟨h, h.of_fields rfl rfl, rfl, rfl, rfl⟩
theorem witness_BuildingAtStartupChangesNoResult :
    Inv (freshAt 7) ∧ ∀ w ∈ encodeAll [.abs 1, .fmt], decode w ≠ .ok .stat := 
  ⟨inv_freshAt 7, noStat_of_instrs (by decide)⟩
theorem witness_EveryRunEndsAndAnswersEachWord : Inv (freshAt 7) := inv_freshAt 7

end Sys2Proof.Tests
end

section
/-! The table space under one event (spec/10_state.md, R12, R13): what TRD and ABS can answer, that every event but reset leaves
the table as it is or as `EnsureTable()` leaves it, and the two statements about the table's life and the values after reset. -/

namespace Sys2Proof.Machine

/-! ### What a command with a checked operand can answer (R70, R83, R85) -/

/-- TRD answers with the entry it read after the build, or rejects its operand. -/
theorem execTrd_next {idx : Word} {s t : State} (h : execTrd idx s = .next t) :
    (idx.toNat ≤ 255 ∧ ∃ v, (ensureTable s).table.read (idx.setWidth 8) = some v ∧
      t = respond .ok (resultData v) (ensureTable s)) ∨
    (255 < idx.toNat ∧ t = respond .invalidInput 0 s) := by
  rcases le_or_gt idx.toNat 255 with hle | hgt
  · simp only [execTrd, indexOperand_eq, checkRange_of_le hle] at h
    obtain ⟨v, hread, hv⟩ := readEntry_next h
    cases hv
    exact .inl ⟨hle, v, hread, rfl⟩
  · simp only [execTrd, indexOperand_eq, checkRange_of_gt hgt] at h
    cases h
    exact .inr ⟨hgt, rfl⟩

/-- ABS drains one byte with the entry it read after the build, or rejects its operand. -/
theorem execAbs_next {b : Word} {s t : State} (h : execAbs b s = .next t) :
    (b.toNat ≤ 255 ∧ ∃ v, (ensureTable s).table.read (lookupIndex s.acc (b.setWidth 8)) = some v ∧
      t = respond .ok 0 (setAcc (drainByte v s.acc) (ensureTable s))) ∨
    (255 < b.toNat ∧ t = respond .invalidInput 0 s) := by
  rcases le_or_gt b.toNat 255 with hle | hgt
  · simp only [execAbs, byteOperand_eq, checkRange_of_le hle] at h
    obtain ⟨v, hread, hv⟩ := readEntry_next h
    cases hv
    exact .inl ⟨hle, v, hread, rfl⟩
  · simp only [execAbs, byteOperand_eq, checkRange_of_gt hgt] at h
    cases h
    exact .inr ⟨hgt, rfl⟩

/-! ### The table space and `tv` under one event -/

/-- Equal `tv` and equal table, whatever `ACC` and the port hold. -/
def SameTable (s t : State) : Prop := t.tv = s.tv ∧ t.table = s.table

/-- A command leaves the table space as it is, or as `EnsureTable()` leaves it. -/
theorem exec_sameTable {i : Instr} {s t : State} (h : exec i s = .next t) :
    SameTable s t ∨ SameTable (ensureTable s) t := by
  cases i with
  | tgen => cases h; exact .inr ⟨rfl, rfl⟩
  | trd idx =>
    obtain ⟨-, v, -, rfl⟩ | ⟨-, rfl⟩ := execTrd_next h
    · exact .inr ⟨rfl, rfl⟩
    · exact .inl ⟨rfl, rfl⟩
  | abs b =>
    obtain ⟨-, v, -, rfl⟩ | ⟨-, rfl⟩ := execAbs_next h
    · exact .inr ⟨rfl, rfl⟩
    · exact .inl ⟨rfl, rfl⟩
  | stat | init | ldacc | rdacc | fmt => cases h; exact .inl ⟨rfl, rfl⟩

/-- An illegal word only responds, so a word does no more to the table space than a command does. -/
theorem executeWord_sameTable {w : CmdWord} {s t : State} (h : executeWord w s = .next t) :
    SameTable s t ∨ SameTable (ensureTable s) t := by
  unfold executeWord at h
  split at h
  · exact exec_sameTable h
  · cases h; exact .inl ⟨rfl, rfl⟩

/-- Every event that is answered, reset apart, leaves the table space as it is or as `EnsureTable()` leaves it (R12). -/
theorem takeEvent_sameTable {e : PortEvent} {s t : State} (h : takeEvent e s = .next t) (he : e ≠ .reset) :
    SameTable s t ∨ SameTable (ensureTable s) t := by
  cases e with
  | command w => exact executeWord_sameTable h
  | reset => exact absurd rfl he
  | resetDuring w => cases h
  | brokenWord n => cases h

/-- The build writes all 256 entries, whatever the table held before (R68). -/
theorem tableBuilt_ensureTable_of_invalid {s : State} (h : s.tv = false) : tableBuilt (ensureTable s).table := by
  intro i
  rw [ensureTable_table_of_invalid s h, read_fillTable, if_pos (mem_buildOrder i)]

/-- Settles O50: an event but reset leaves the table space alone or runs `EnsureTable()`, which does nothing when `tv = 1` and
builds the whole table when `tv = 0`. -/
theorem tableIsWrittenOncePerReset : Obligations.TableIsWrittenOncePerReset := by
  intro e s t h he
  obtain ⟨htv, htable⟩ | ⟨htv, htable⟩ := takeEvent_sameTable h he
  · refine ⟨fun hs => ⟨htv.trans hs, htable⟩, fun _ _ => htable, fun hs ht => ?_⟩
    rw [htv, hs] at ht
    cases ht
  · rw [ensureTable_tv] at htv
    refine ⟨fun hs => ⟨htv, ?_⟩, fun _ ht => ?_, fun hs _ => ?_⟩
    · rw [htable, ensureTable_of_valid s hs]
    · rw [htv] at ht
      cases ht
    · rw [htable]
      exact tableBuilt_ensureTable_of_invalid hs

/-- `STATUS` reads 0 while the table is not built (R19). -/
theorem statusReg_of_invalid {s : State} (h : s.tv = false) : statusReg s = 0 := by simp [statusReg, h]

/-- Settles O44: the reset state holds 0 in `ACC` and `tv`, and `STATUS` is a view of `tv`. -/
theorem resetValues : Obligations.ResetValues := ⟨rfl, rfl, statusReg_of_invalid rfl⟩

end Sys2Proof.Machine
end

section
/-! The words the decoder rejects (spec/30_encoding.md, R51, R52): the two ways a word is no command, and how
each is answered. -/

namespace Sys2Proof

/-- A nonzero unused operand is rejected, whatever the command (R52). -/
theorem noOperand_of_ne_zero {arg : Word} (h : arg ≠ 0) (i : Instr) : noOperand arg i = .error .nonzeroOperand := if_neg h

end Sys2Proof

namespace Sys2Proof.Machine

/-- An opcode is listed in R50 exactly when its numeral is. -/
theorem mem_opcodes_iff (op : Byte) : op ∈ opcodes ↔ op.toNat ∈ [0x01, 0x02, 0x03, 0x10, 0x11, 0x12, 0x13, 0x14] := by
  simp [opcodes, ← BitVec.toNat_inj]

/-- An opcode outside R50's map decodes to no command, whatever the operand (R51). -/
theorem decode_of_opField_notMem_opcodes {w : CmdWord} (h : opField w ∉ opcodes) : decode w = .error .reservedOpcode := by
  rw [mem_opcodes_iff] at h
  unfold decode decodeFor
  split
  case h_9 => rfl
  -- Every other arm matched one of R50's numerals.
  all_goals
    rename_i hop
    simp [hop] at h

/-- A word with a format N opcode is decoded by the check of its unused operand (R52). -/
theorem exists_decode_eq_noOperand {w : CmdWord} (h : opField w ∈ plainOpcodes) :
    ∃ i, decode w = noOperand (argField w) i := by
  simp only [plainOpcodes, List.mem_cons, List.not_mem_nil, or_false] at h
  obtain h | h | h | h | h := h
  · exact ⟨.tgen, by rw [decode, decodeFor, h]; rfl⟩
  · exact ⟨.stat, by rw [decode, decodeFor, h]; rfl⟩
  · exact ⟨.init, by rw [decode, decodeFor, h]; rfl⟩
  · exact ⟨.rdacc, by rw [decode, decodeFor, h]; rfl⟩
  · exact ⟨.fmt, by rw [decode, decodeFor, h]; rfl⟩

/-- A word the decoder rejects, for either reason, is answered `IllegalCommand` with data 0 and changes nothing else
(R127, R128). -/
theorem executeWord_of_decode_error {w : CmdWord} {e : Illegal} (h : decode w = .error e) (s : State) :
    executeWord w s = .next (answered ⟨.illegalCommand, 0⟩ s) := by
  rw [executeWord, h]
  rfl

/-- Settles O32: the decoder names the reason for each kind of word, and every word it rejects is answered alike. -/
theorem reservedWordsAreRejected : Obligations.ReservedWordsAreRejected := by
  intro w s
  refine ⟨fun hop => ?_, fun hop harg => ?_⟩
  · have hdecode := decode_of_opField_notMem_opcodes hop
    exact ⟨hdecode, executeWord_of_decode_error hdecode s⟩
  · obtain ⟨i, hi⟩ := exists_decode_eq_noOperand hop
    have hdecode := hi.trans (noOperand_of_ne_zero harg i)
    exact ⟨hdecode, executeWord_of_decode_error hdecode s⟩

end Sys2Proof.Machine
end

section
/-! The table generator (spec/40_table_generator.md): the shift step bit by bit, an entry as eight shift steps, and what TGEN and
TRD answer. -/

namespace Sys2Proof.Machine

/-! ### The shift step and the entries it generates (R65, R66) -/

/-- A right shift by one place moves every bit one place toward bit 0 and fills bit 63 with 0. -/
theorem getLsbD_ushiftRight_one (r : Word) {i : Nat} (hi : i < 64) :
    (r >>> 1).getLsbD i = (decide (i < 63) && r.getLsbD (i + 1)) := by
  rw [BitVec.getLsbD_ushiftRight, Nat.add_comm]
  rcases Nat.lt_or_ge i 63 with hlt | hge
  · rw [decide_eq_true hlt, Bool.true_and]
  · rw [BitVec.getLsbD_of_ge r (i + 1) (by omega), Bool.and_false]

/-- Settles O2: the two branches of the step differ in the exclusive-or with `POLY`. -/
theorem shiftStepMovesEveryBitTowardZero : Obligations.ShiftStepMovesEveryBitTowardZero := by
  intro r i hi
  rw [← getLsbD_ushiftRight_one r hi, shiftStep]
  split
  next hset => rw [BitVec.getLsbD_xor, hset, Bool.true_and]
  next hclear => rw [Bool.eq_false_of_not_eq_true hclear, Bool.false_and, Bool.xor_false]

/-- `g^n` is the shift step iterated `n` times. -/
theorem shiftSteps_eq_iterate (n : Nat) (r : Word) : shiftSteps n r = shiftStep^[n] r := by
  induction n generalizing r with
  | zero => rfl
  | succ n ih => rw [shiftSteps, ih, Function.iterate_succ_apply]

/-- An entry is eight shift steps of its index (R66). -/
theorem gen_eq_iterate (v : Byte) : gen v = shiftStep^[8] (v.setWidth 64) := shiftSteps_eq_iterate 8 _

/-! ### The build, and the words of TGEN and TRD -/

/-- `EnsureTable()` writes nothing but `tv` and the table (R68). -/
theorem ensureTable_eq (s : State) : ensureTable s = { s with tv := true, table := (ensureTable s).table } := by
  rcases hs : s.tv with _ | _
  · rw [ensureTable_of_invalid s hs]
  · rw [ensureTable_of_valid s hs, ← hs]

/-- The opcode of TGEN asks for the check of the unused operand (R50, R52). -/
theorem decode_tgen_append (arg : Word) : decode (0x01#8 ++ arg) = noOperand arg .tgen := by
  rw [decode, decodeFor, opField_append, argField_append]
  rfl

/-- The opcode of TRD takes any operand (R50). -/
theorem decode_trd_append (idx : Word) : decode (0x02#8 ++ idx) = .ok (.trd idx) := by
  rw [decode, decodeFor, opField_append, argField_append]
  rfl

/-- TGEN answers OK with data 0 from the state with the table built (R69). -/
theorem exec_tgen (s : State) : exec .tgen s = .next (answered ⟨.ok, 0⟩ (ensureTable s)) := rfl

/-- TRD of an index in range answers with the entry of that index, from the state with the table built (R70). -/
theorem exec_trd_of_le {s : State} {idx : Word} (hs : Inv s) (h : idx.toNat ≤ 255) :
    exec (.trd idx) s = .next (answered ⟨.ok, (gen (idx.setWidth 8)).setWidth 128⟩ (ensureTable s)) :=
  execTrd_of_le hs h

/-- TRD of a larger operand is rejected, with no build (R70). -/
theorem exec_trd_of_gt {idx : Word} (h : 255 < idx.toNat) (s : State) :
    exec (.trd idx) s = .next (answered ⟨.invalidInput, 0⟩ s) := by
  rw [exec, execTrd, indexOperand_eq, checkRange_of_gt h]
  rfl

/-- Settles O8: TGEN runs `EnsureTable()`, which does nothing on a built table and otherwise writes `gen` into every entry. -/
theorem tgenBuildsTheTable : Obligations.TgenBuildsTheTable := by
  intro s
  refine ⟨fun hs => ?_, fun hs => ⟨(ensureTable s).table, fun v => ?_, ?_⟩, rfl, fun arg harg => ?_⟩
  · rw [exec_tgen, ensureTable_of_valid s hs]
  · rw [← gen_eq_iterate]
    exact tableBuilt_ensureTable_of_invalid hs v
  · rw [exec_tgen, ← ensureTable_eq]
  · exact executeWord_of_decode_error ((decode_tgen_append arg).trans (noOperand_of_ne_zero harg .tgen)) s

/-- Settles O9: TRD in range reads the table `EnsureTable()` leaves, which the invariant says is built. -/
theorem trdReturnsTheEntry : Obligations.TrdReturnsTheEntry := by
  intro s idx
  refine ⟨decode_trd_append idx, fun hle hs => ⟨(ensureTable s).table, (ensureTable_built hs).1, fun htv => ?_, ?_⟩,
    fun hgt => exec_trd_of_gt hgt s⟩
  · rw [ensureTable_of_valid s htv]
  · rw [exec_trd_of_le hs hle, ← ensureTable_eq]

end Sys2Proof.Machine
end

section
/-! The accumulator family (spec/41_accumulator.md): the index ABS looks up, the words of the four commands, and what each of
them answers. -/

namespace Sys2Proof.Machine

/-! ### The index of the lookup (R80) -/

/-- The lookup index is the low byte of the accumulator, exclusive-ored with the byte absorbed. -/
theorem lookupIndex_eq (a : Word) (b : Byte) : lookupIndex a b = a.setWidth 8 ^^^ b := by
  rw [lookupIndex, lowBits_eq_setWidth, BitVec.setWidth_xor, BitVec.setWidth_setWidth_of_le b (by decide),
    BitVec.setWidth_eq]

/-- ABS may take the index from its whole operand: only the low byte counts. -/
theorem lookupIndex_setWidth (a b : Word) : lookupIndex a (b.setWidth 8) = (a ^^^ b).setWidth 8 := by
  rw [lookupIndex_eq, BitVec.setWidth_xor]

/-! ### The words of INIT, LDACC, ABS and RDACC (R50, R52) -/

/-- The opcode of INIT asks for the check of the unused operand. -/
theorem decode_init_append (arg : Word) : decode (0x10#8 ++ arg) = noOperand arg .init := by
  rw [decode, decodeFor, opField_append, argField_append]
  rfl

/-- The opcode of LDACC takes any operand. -/
theorem decode_ldacc_append (v : Word) : decode (0x11#8 ++ v) = .ok (.ldacc v) := by
  rw [decode, decodeFor, opField_append, argField_append]
  rfl

/-- The opcode of ABS takes any operand; ABS itself checks its range (R48). -/
theorem decode_abs_append (b : Word) : decode (0x12#8 ++ b) = .ok (.abs b) := by
  rw [decode, decodeFor, opField_append, argField_append]
  rfl

/-- The opcode of RDACC asks for the check of the unused operand. -/
theorem decode_rdacc_append (arg : Word) : decode (0x13#8 ++ arg) = noOperand arg .rdacc := by
  rw [decode, decodeFor, opField_append, argField_append]
  rfl

/-! ### The commands -/

/-- INIT answers OK with data 0 from the state with `ACC` cleared (R81). -/
theorem exec_init (s : State) : exec .init s = .next (answered ⟨.ok, 0⟩ { s with acc := 0 }) := rfl

/-- LDACC answers OK with data 0 from the state with `ACC` replaced (R82). -/
theorem exec_ldacc (v : Word) (s : State) : exec (.ldacc v) s = .next (answered ⟨.ok, 0⟩ { s with acc := v }) := rfl

/-- RDACC answers with the raw register, zero-extended (R84, R58). -/
theorem exec_rdacc (s : State) : exec .rdacc s = .next (answered ⟨.ok, s.acc.setWidth 128⟩ s) := rfl

/-- ABS of a byte answers OK with data 0 from the state with the table built and one byte step taken in `ACC` (R83). -/
theorem exec_abs_of_le {s : State} {b : Word} (hs : Inv s) (h : b.toNat ≤ 255) :
    exec (.abs b) s = .next (answered ⟨.ok, 0⟩
      { ensureTable s with acc := gen ((s.acc ^^^ b).setWidth 8) ^^^ (s.acc >>> 8) }) := by
  rw [exec, execAbs_of_le hs h, lookupIndex_setWidth]
  rfl

/-- ABS of a larger operand is rejected, with no build (R85). -/
theorem exec_abs_of_gt {b : Word} (h : 255 < b.toNat) (s : State) :
    exec (.abs b) s = .next (answered ⟨.invalidInput, 0⟩ s) := by
  rw [exec, execAbs, byteOperand_eq, checkRange_of_gt h]
  rfl

/-- Settles O14: ABS of a byte steps with the table `EnsureTable()` leaves, which the invariant says is built; a larger operand
is rejected before the build. -/
theorem absAbsorbsOneByte : Obligations.AbsAbsorbsOneByte := by
  intro s b
  refine ⟨decode_abs_append b, fun hle hs => ⟨(ensureTable s).table, (ensureTable_built hs).1, fun htv => ?_, ?_⟩,
    fun hgt => exec_abs_of_gt hgt s⟩
  · rw [ensureTable_of_valid s htv]
  · rw [exec_abs_of_le hs hle, ensureTable_eq]

/-- Settles O12: INIT clears `ACC` alone, and its word is rejected with a nonzero operand. -/
theorem initClearsTheAccumulator : Obligations.InitClearsTheAccumulator := fun s =>
  ⟨exec_init s, decode_init_append 0, fun arg harg =>
    executeWord_of_decode_error ((decode_init_append arg).trans (noOperand_of_ne_zero harg .init)) s⟩

/-- Settles O13: LDACC's word carries any operand, and the command puts it in `ACC` alone. -/
theorem ldaccLoadsTheAccumulator : Obligations.LdaccLoadsTheAccumulator := fun s v =>
  ⟨decode_ldacc_append v, exec_ldacc v s⟩

/-- Settles O15: RDACC only responds, and its word is rejected with a nonzero operand. -/
theorem rdaccReadsTheAccumulator : Obligations.RdaccReadsTheAccumulator := fun s =>
  ⟨exec_rdacc s, decode_rdacc_append 0, fun arg harg =>
    executeWord_of_decode_error ((decode_rdacc_append arg).trans (noOperand_of_ne_zero harg .rdacc)) s⟩

end Sys2Proof.Machine
end

section
/-! Composition (spec/42_composition.md): the byte functions over concatenated sequences, and what a run of the commands that
ABSS, UPDATE and CHECKSUM stand for leaves in `ACC` and answers last. -/

namespace Sys2Proof

/-- The decoder reads every command back from its own word (R45, R50). -/
@[simp] theorem decode_encode (i : Instr) : decode (encode i) = .ok i := by
  cases i with
  | tgen => exact Machine.decode_tgen_append 0
  | trd idx => exact Machine.decode_trd_append idx
  | stat => rfl
  | init => exact Machine.decode_init_append 0
  | ldacc v => exact Machine.decode_ldacc_append v
  | abs b => exact Machine.decode_abs_append b
  | rdacc => exact Machine.decode_rdacc_append 0
  | fmt => rfl

end Sys2Proof

namespace Sys2Proof.Machine

/-! ### `update` and `checksum` over byte sequences (R100, R101) -/

@[simp] theorem update_nil (a : Word) : update a [] = a := rfl

@[simp] theorem update_cons (a : Word) (b : Byte) (bytes : List Byte) :
    update a (b :: bytes) = update (byteStep a b) bytes := rfl

/-- A sequence is consumed part by part. -/
theorem update_append (a : Word) (xs ys : List Byte) : update a (xs ++ ys) = update (update a xs) ys := by
  induction xs generalizing a with
  | nil => rfl
  | cons x xs ih => rw [List.cons_append, update_cons, update_cons, ih]

/-- Settles O19: both functions go through a sequence from the left, so a cut passes on the accumulator reached there. -/
theorem chunksCompose : Obligations.ChunksCompose :=
  ⟨fun a xs ys => (update_append a xs ys).symm, update_append 0, update_nil, update_nil 0⟩

/-! ### Runs of encoded commands (R17, R154) -/

/-- The word of a command runs that command (R49). -/
@[simp] theorem executeWord_encode (i : Instr) (s : State) : executeWord (encode i) s = exec i s := by
  rw [executeWord, decode_encode]

/-- A word that is answered hands the state it leaves to the words after it. -/
theorem runWords_cons_of_next {w : CmdWord} {s t : State} (h : executeWord w s = .next t) (ws : List CmdWord) :
    runWords (w :: ws) s = runWords ws t := by
  rw [runWords, h]

/-- A run that ends hands its last state to the words after it. -/
theorem runWords_append_of_next {ws : List CmdWord} {s t : State} (h : runWords ws s = .next t) (ws' : List CmdWord) :
    runWords (ws ++ ws') s = runWords ws' t := by
  induction ws generalizing s with
  | nil => cases h; rfl
  | cons w ws ih =>
    rw [runWords] at h
    split at h
    next u hu => exact (runWords_cons_of_next hu _).trans (ih h)
    next => cases h
    next => cases h

@[simp] theorem encodeAll_append (is js : List Instr) : encodeAll (is ++ js) = encodeAll is ++ encodeAll js :=
  List.map_append

/-- The first command of a list runs on the start state, the rest on what it leaves. -/
theorem runWords_encodeAll_cons {i : Instr} {s t : State} (h : exec i s = .next t) (is : List Instr) :
    runWords (encodeAll (i :: is)) s = runWords (encodeAll is) t :=
  runWords_cons_of_next ((executeWord_encode i s).trans h) _

/-! ### Absorbing a byte sequence, and reading out the result -/

/-- A byte passes the range check of ABS, which takes one byte step with it (R83, R80). -/
theorem exec_abs_setWidth {s : State} (hs : Inv s) (b : Byte) :
    exec (.abs (b.setWidth 64)) s = .next (respond .ok 0 (setAcc (byteStep s.acc b) (ensureTable s))) := by
  have hle : (b.setWidth 64).toNat ≤ 255 := by
    have hb := b.isLt
    rw [BitVec.toNat_setWidth_of_le (by decide)]
    omega
  have hbyte : (b.setWidth 64).setWidth 8 = b := by
    rw [BitVec.setWidth_setWidth_of_le b (by decide), BitVec.setWidth_eq]
  rw [exec, execAbs_of_le hs hle, hbyte, byteStep]

/-- ABSS of a byte sequence ends, with `update` of the sequence in `ACC` and the invariant kept (R102). -/
theorem runWords_abss_byteOperands (bytes : List Byte) {s : State} (hs : Inv s) :
    ∃ t, runWords (encodeAll (expandAbss (byteOperands bytes))) s = .next t ∧ t.acc = update s.acc bytes ∧ Inv t := by
  induction bytes generalizing s with
  | nil => exact ⟨s, rfl, rfl, hs⟩
  | cons b bytes ih =>
    have hinv : Inv (respond .ok 0 (setAcc (byteStep s.acc b) (ensureTable s))) := hs.ensureTable.of_fields rfl rfl
    obtain ⟨t, hrun, hacc, ht⟩ := ih hinv
    exact ⟨t, (runWords_encodeAll_cons (exec_abs_setWidth hs b) _).trans hrun, hacc, ht⟩

/-- A byte sequence absorbed and read out: `ACC` and the last response hold `update` of the sequence. -/
theorem runWords_abss_rdacc (bytes : List Byte) {s : State} (hs : Inv s) :
    ∃ t, runWords (encodeAll (expandAbss (byteOperands bytes) ++ [.rdacc])) s = .next t ∧
      t.acc = update s.acc bytes ∧ t.responses.getLast? = some ⟨.ok, (update s.acc bytes).setWidth 128⟩ := by
  obtain ⟨t, hrun, hacc, -⟩ := runWords_abss_byteOperands bytes hs
  refine ⟨answered ⟨.ok, t.acc.setWidth 128⟩ t, ?_, hacc, ?_⟩
  · rw [encodeAll_append, runWords_append_of_next hrun]
    exact runWords_encodeAll_cons (exec_rdacc t) []
  · rw [answered, List.getLast?_concat, hacc]

/-- UPDATE first puts its operand in `ACC`, so that what it reads out is `update` from there (R103). -/
theorem runWords_update (a : Word) (bytes : List Byte) {s : State} (hs : Inv s) :
    ∃ t, runWords (encodeAll (expand (.update a (byteOperands bytes)))) s = .next t ∧
      t.acc = update a bytes ∧ t.responses.getLast? = some ⟨.ok, (update a bytes).setWidth 128⟩ := by
  have hinv : Inv (answered ⟨.ok, 0⟩ { s with acc := a }) := hs.of_fields rfl rfl
  obtain ⟨t, hrun, hresult⟩ := runWords_abss_rdacc bytes hinv
  exact ⟨t, (runWords_encodeAll_cons (exec_ldacc a s) _).trans hrun, hresult⟩

/-- INIT and LDACC 0 leave the same state with the same response, so CHECKSUM runs as UPDATE from 0 does (R104). -/
theorem runWords_checksum_eq_update (operands : List Word) (s : State) :
    runWords (encodeAll (expand (.checksum operands))) s = runWords (encodeAll (expand (.update 0 operands))) s :=
  (runWords_encodeAll_cons (exec_init s) _).trans (runWords_encodeAll_cons (exec_ldacc 0 s) _).symm

/-- Settles O23: LDACC sets the accumulator the bytes are absorbed from; where it already holds that value, the run without
LDACC absorbs them from there too. -/
theorem updateExpansionComputesUpdate : Obligations.UpdateExpansionComputesUpdate := by
  intro a bytes s hs
  refine ⟨runWords_update a bytes hs, fun hacc => ?_⟩
  rw [← hacc]
  exact runWords_abss_rdacc bytes hs

/-- Settles O24: CHECKSUM runs as UPDATE 0 does, and `checksum` is `update` from 0. -/
theorem checksumExpansionComputesChecksum : Obligations.ChecksumExpansionComputesChecksum := by
  intro bytes s hs
  obtain ⟨t, hrun, hacc, hlast⟩ := runWords_update 0 bytes hs
  exact ⟨t, (runWords_checksum_eq_update _ s).trans hrun, hacc, hlast, hrun⟩

end Sys2Proof.Machine
end

section
/-! The hexadecimal read-out (spec/43_format.md): the digits of any value read as a numeral give the value back, for every
number of digits, and `hex16` is the case of 16. -/

namespace Sys2Proof.Machine

/-- R115's characters: no digit is an uppercase letter. -/
theorem digit_range (d : BitVec 4) : ('0' ≤ digit d ∧ digit d ≤ '9') ∨ ('a' ≤ digit d ∧ digit d ≤ 'f') := by
  revert d
  decide

/-- A digit is read back as its nibble. -/
@[simp] theorem hexDigitValue_digit (d : BitVec 4) : hexDigitValue (digit d) = some d.toNat := by
  revert d
  decide

@[simp] theorem numeralFrom_digit_cons (acc : Nat) (d : BitVec 4) (rest : List Char) :
    numeralFrom 16 acc (digit d :: rest) = numeralFrom 16 (16 * acc + d.toNat) rest := by
  rw [numeralFrom, hexDigitValue_digit]
  exact if_pos d.isLt

@[simp] theorem length_hexDigits (n v : Nat) : (hexDigits n v).length = n := by
  simp [hexDigits]

/-- The first of `n + 1` digits has weight `16 ^ n`; the others are the `n` digits of the same value. -/
theorem hexDigits_succ (n v : Nat) :
    hexDigits (n + 1) v = digit (BitVec.ofNat 4 (v / 16 ^ n)) :: hexDigits n v := by
  have hweight : ∀ k, n - 1 - k = n - (k + 1) := fun k => by omega
  simp [hexDigits, List.range_succ_eq_map, hweight]

/-- Read after the digits of `acc`, the `n` digits of a value add its last `n` digits to `acc` moved up `n` places. -/
theorem numeralFrom_hexDigits (n acc v : Nat) :
    numeralFrom 16 acc (hexDigits n v) = some (16 ^ n * acc + v % 16 ^ n) := by
  induction n generalizing acc with
  | zero => simp [hexDigits, numeralFrom, Nat.mod_one]
  | succ n ih =>
    rw [hexDigits_succ, numeralFrom_digit_cons, ih, BitVec.toNat_ofNat, Nat.mod_pow_succ (b := 16)]
    congr 1
    ring

/-- A value that fits in `n` digits is the numeral they write. -/
theorem numeralFrom_hexDigits_of_lt {n v : Nat} (hv : v < 16 ^ n) : numeralFrom 16 0 (hexDigits n v) = some v := by
  rw [numeralFrom_hexDigits, Nat.mod_eq_of_lt hv, Nat.mul_zero, Nat.zero_add]

/-- The nibble of character `k` is the hexadecimal digit of weight `16 ^ (15 - k)`. -/
theorem nibble_eq_ofNat (a : Word) {k : Nat} (hk : k < 16) :
    nibble a k = BitVec.ofNat 4 (a.toNat / 16 ^ (16 - 1 - k)) := by
  have hpow : 2 ^ (60 - 4 * k) = 16 ^ (16 - 1 - k) := by
    rw [show 60 - 4 * k = 4 * (16 - 1 - k) by omega, pow_mul]
    norm_num
  apply BitVec.eq_of_toNat_eq
  rw [nibble, BitVec.extractLsb'_toNat, Nat.shiftRight_eq_div_pow, hpow, BitVec.toNat_ofNat]

/-- `hex16` writes the value of its word in 16 digits (R115). -/
theorem hex16_eq_hexDigits (a : Word) : hex16 a = hexDigits 16 a.toNat :=
  List.map_congr_left fun _ hk => congrArg digit (nibble_eq_ofNat a (List.mem_range.mp hk))

theorem numeralFrom_hex16 (a : Word) : numeralFrom 16 0 (hex16 a) = some a.toNat := by
  rw [hex16_eq_hexDigits]
  exact numeralFrom_hexDigits_of_lt a.isLt

/-- Every character of `hex16` is a digit of a nibble. -/
theorem exists_digit_of_mem_hex16 {a : Word} {c : Char} (hc : c ∈ hex16 a) : ∃ d, digit d = c := by
  obtain ⟨k, -, hk⟩ := List.mem_map.mp hc
  exact ⟨nibble a k, hk⟩

/-- Two words with the same string are the same numeral. -/
theorem hex16_injective : Function.Injective hex16 := by
  intro a b hab
  have hnum : some a.toNat = some b.toNat := by
    rw [← numeralFrom_hex16 a, hab, numeralFrom_hex16 b]
  exact BitVec.eq_of_toNat_eq (Option.some.inj hnum)

/-- Settles O27: `hex16` writes its word in 16 hexadecimal digits, so that its numeral names the word. -/
theorem hexStringIsTheNumeral : Obligations.HexStringIsTheNumeral := by
  refine ⟨fun a => ⟨?_, fun c hc => ?_, numeralFrom_hex16 a⟩, hex16_injective⟩
  · rw [hex16_eq_hexDigits, length_hexDigits]
  · obtain ⟨d, rfl⟩ := exists_digit_of_mem_hex16 hc
    exact digit_range d

end Sys2Proof.Machine
end

section
/-! Exceptions (spec/60_exceptions.md): the checks a word can fail, and how a word that fails one is answered. -/

namespace Sys2Proof.Machine

/-- A rejected word has a reserved opcode, a nonzero unused operand, or an operand out of range (R132). -/
theorem rejection_eq_some {w : CmdWord} {st : Status} (h : rejection w = some st) :
    (opField w ∉ opcodes ∧ st = .illegalCommand) ∨
    (opField w ∈ plainOpcodes ∧ argField w ≠ 0 ∧ st = .illegalCommand) ∨
    (opField w ∈ rangedOpcodes ∧ 255 < (argField w).toNat ∧ st = .invalidInput) := by
  unfold rejection at h
  split at h
  next hop => cases h; exact .inl ⟨hop, rfl⟩
  next =>
    split at h
    next hplain => cases h; exact .inr (.inl ⟨hplain.1, hplain.2, rfl⟩)
    next =>
      split at h
      next hranged => cases h; exact .inr (.inr ⟨hranged.1, hranged.2, rfl⟩)
      next => cases h

/-- A word of TRD or ABS with an operand out of range is answered `InvalidInput` with data 0, from the state as it was before
any build (R126, R128). -/
theorem executeWord_of_outOfRange {w : CmdWord} (hop : opField w ∈ rangedOpcodes) (harg : 255 < (argField w).toNat)
    (s : State) : executeWord w s = .next (answered ⟨.invalidInput, 0⟩ s) := by
  simp only [rangedOpcodes, List.mem_cons, List.not_mem_nil, or_false] at hop
  rw [← opField_append_argField w]
  obtain htrd | habs := hop
  · rw [htrd]
    exact (executeWord_encode (.trd (argField w)) s).trans (exec_trd_of_gt harg s)
  · rw [habs]
    exact (executeWord_encode (.abs (argField w)) s).trans (exec_abs_of_gt harg s)

/-- Settles O38: the decoder rejects the words of the first two checks, TRD and ABS those of the third, before the build. -/
theorem rejectedWordsOnlyRespond : Obligations.RejectedWordsOnlyRespond := by
  intro w st s h
  obtain ⟨hreserved, hplain⟩ := reservedWordsAreRejected w s
  obtain ⟨hop, rfl⟩ | ⟨hop, harg, rfl⟩ | ⟨hop, harg, rfl⟩ := rejection_eq_some h
  · exact (hreserved hop).2
  · exact (hplain hop harg).2
  · exact executeWord_of_outOfRange hop harg s

end Sys2Proof.Machine
end

section
/-! The machine step by step (spec/10_state.md, R17; spec/70_reset_and_hazards.md): what a step does with the oldest pending
event, the invariant it keeps, and a run as so many steps. -/

namespace Sys2Proof.Machine

/-! ### The next event (R37, R49) -/

/-- With nothing presented a step keeps the state (log 3). -/
theorem step_of_pending_nil {s : State} (h : s.pending = []) : step s = .next s := by
  rw [step, takeNext, h]

/-- A step takes the oldest pending event, in the state without it. -/
theorem step_of_pending_cons {e : PortEvent} {rest : List PortEvent} {s : State} (h : s.pending = e :: rest) :
    step s = takeEvent e { s with pending := rest } := by
  rw [step, takeNext, h]

/-- A word placed by `withFetchWord` is taken before whatever is pending (log 15). -/
theorem step_withFetchWord (s : State) (n w : Nat) : step (s.withFetchWord n w) = takeEvent (presentedAs n w) s :=
  step_of_pending_cons (withFetchWord_pending s n w)

/-- A word that decodes runs its command (R49). -/
theorem executeWord_of_decode_ok {w : CmdWord} {i : Instr} (h : decode w = .ok i) (s : State) :
    executeWord w s = exec i s := by
  rw [executeWord, h]

/-- Read from the opcode table, a 72-bit word is the command the decoder finds. -/
theorem decodeTableWord_of_decode_ok {w : CmdWord} {i : Instr} (h : decode w = .ok i) :
    decodeTableWord 72 w.toNat = some i := by
  simp [decodeTableWord, tableWord, h]

theorem decodeTableWord_of_decode_error {w : CmdWord} {e : Illegal} (h : decode w = .error e) :
    decodeTableWord 72 w.toNat = none := by
  simp [decodeTableWord, tableWord, h]

/-- Settles O29: the opcode of each command selects its own arm of the decoder, and the operand is read back whole. -/
theorem decodeOfEncode : Obligations.DecodeOfEncode := decode_encode

/-- Settles O51: a step takes the first pending word, and a placed word is the first pending one. -/
theorem stepRunsTheDecodedCommand : Obligations.StepRunsTheDecodedCommand := by
  intro s w
  refine ⟨fun rest hrest => ⟨fun i hi => ?_, fun e he => ?_⟩, fun i hi => ⟨decodeTableWord_of_decode_ok hi, ?_⟩,
    fun e he => ⟨decodeTableWord_of_decode_error he, ?_⟩⟩
  · exact (step_of_pending_cons hrest).trans (executeWord_of_decode_ok hi _)
  · exact (step_of_pending_cons hrest).trans (executeWord_of_decode_error he _)
  · rw [step_withFetchWord, presentedAs_whole]
    exact executeWord_of_decode_ok hi s
  · rw [step_withFetchWord, presentedAs_whole]
    exact executeWord_of_decode_error he s

/-- Settles O52: nothing pending, nothing taken. -/
theorem idleStepChangesNothing : Obligations.IdleStepChangesNothing := fun _ => step_of_pending_nil

/-- Settles O53: both events are refused where they are taken, and a word of another width is presented as the second. -/
theorem unspecifiedEventsAreRefused : Obligations.UnspecifiedEventsAreRefused := by
  refine ⟨fun s rest => ⟨fun w hw => step_of_pending_cons hw, fun n hn => step_of_pending_cons hn⟩,
    fun s n w hn => ⟨?_, if_neg hn⟩⟩
  rw [step_withFetchWord, presentedAs_broken _ _ hn]
  rfl

/-! ### The invariant -/

/-- An event that leaves the table space as it is, or as `EnsureTable()` leaves it, keeps the invariant. -/
theorem Inv.of_sameTable {s t : State} (hs : Inv s) (h : SameTable s t ∨ SameTable (Machine.ensureTable s) t) :
    Inv t := by
  obtain ⟨htv, htable⟩ | ⟨htv, htable⟩ := h
  · exact hs.of_fields htv htable
  · exact hs.ensureTable.of_fields htv htable

/-- A reset lists no entry, whatever the state was (R145; log 4). -/
theorem inv_resetBlock (s : State) : Inv (resetBlock s) where
  wf := rfl
  built := fun h => by cases h
  unbuilt := fun _ => rfl

/-- Every event that is answered keeps the invariant: reset lists no entry, every other event builds the whole table or none
of it. -/
theorem inv_of_takeEvent {e : PortEvent} {s t : State} (hs : Inv s) (h : takeEvent e s = .next t) : Inv t := by
  by_cases he : e = .reset
  · subst he
    cases h
    exact inv_resetBlock s
  · exact hs.of_sameTable (takeEvent_sameTable h he)

/-- Settles O42: an idle step keeps the state, and any other step takes one event. -/
theorem stepKeepsTheInvariant : Obligations.StepKeepsTheInvariant := by
  intro s t hs h
  cases hp : s.pending with
  | nil =>
    rw [step_of_pending_nil hp] at h
    cases h
    exact hs
  | cons e rest =>
    rw [step_of_pending_cons hp] at h
    have hrest : Inv { s with pending := rest } := hs.of_fields rfl rfl
    exact inv_of_takeEvent hrest h

/-- Settles O43: the reset state is what the reset event leaves. -/
theorem resetMeetsTheInvariant : Obligations.ResetMeetsTheInvariant := inv_resetBlock State.reset

/-- Settles O45: the event clears the block and touches neither the responses nor what is pending after it. -/
theorem resetEventClearsTheBlock : Obligations.ResetEventClearsTheBlock := fun _ _ h =>
  ⟨_, step_of_pending_cons h, resetBlock_acc _, resetBlock_tv _, fun _ => rfl, resetBlock_responses _, resetBlock_pending _⟩

/-! ### A run is one step per word (R17, R154) -/

/-- The outcome with other events pending in the state it leaves. -/
def withPending (p : List PortEvent) : Result → Result
  | .next t => .next { t with pending := p }
  | .fault r => .fault r
  | .refused r => .refused r

theorem ensureTable_withPending (p : List PortEvent) (s : State) :
    ensureTable { s with pending := p } = { ensureTable s with pending := p } := by
  by_cases hs : s.tv = true <;> simp [ensureTable, hs]

/-- A read goes on alike whatever is pending, when what it goes on with does. -/
theorem readEntry_withPending (i : Byte) (p : List PortEvent) (s : State) {go go' : Word → Result}
    (h : ∀ v, go' v = withPending p (go v)) :
    readEntry i { s with pending := p } go' = withPending p (readEntry i s go) := by
  unfold readEntry
  cases s.table.read i with
  | some v => exact h v
  | none => rfl

/-- No command reads what is pending (R17). -/
theorem exec_withPending (i : Instr) (p : List PortEvent) (s : State) :
    exec i { s with pending := p } = withPending p (exec i s) := by
  cases i with
  | tgen =>
    rw [exec_tgen, exec_tgen, ensureTable_withPending]
    rfl
  | trd idx =>
    simp only [exec, execTrd, ensureTable_withPending]
    cases indexOperand idx with
    | inRange i => exact readEntry_withPending i p _ fun _ => rfl
    | outOfRange | unspecified => rfl
  | abs b =>
    simp only [exec, execAbs, ensureTable_withPending]
    cases byteOperand b with
    | inRange byte => exact readEntry_withPending _ p _ fun _ => rfl
    | outOfRange | unspecified => rfl
  | stat | init | ldacc | rdacc | fmt => rfl

theorem executeWord_withPending (w : CmdWord) (p : List PortEvent) (s : State) :
    executeWord w { s with pending := p } = withPending p (executeWord w s) := by
  unfold executeWord
  cases decode w with
  | ok i => exact exec_withPending i p s
  | error e => rfl

/-- The first word presented is taken with the others left pending. -/
theorem step_presentWords_cons (w : CmdWord) (ws : List CmdWord) (s : State) :
    step (presentWords (w :: ws) s) = withPending (ws.map .command) (executeWord w s) :=
  (step_of_pending_cons (presentWords_pending s (w :: ws))).trans (executeWord_withPending w _ s)

/-- Settles O57: by induction on the words, each step leaving the rest of them presented. -/
theorem runIsOneStepPerWord : Obligations.RunIsOneStepPerWord := by
  intro ws
  induction ws with
  | nil => exact fun s => rfl
  | cons w ws ih =>
    intro s
    have hstep : core.step (presentWords (w :: ws) s) = withPending (ws.map .command) (executeWord w s) :=
      step_presentWords_cons w ws s
    rw [List.length_cons, runWords, executeWord_withPending]
    simp only [Host.Core.run, hstep]
    cases executeWord w s with
    | next t => exact ih t
    | fault r | refused r => rfl

end Sys2Proof.Machine
end

section
/-! Encoding (spec/30_encoding.md): what a word that decodes holds in its two fields and why a word is rejected, R50's match and
mask table, the response word, and the listings. -/

namespace Sys2Proof

/-! ### The two fields of a command word (R45, R50) -/

/-- Words with equal fields are equal. -/
theorem eq_of_fields {w w' : CmdWord} (hop : opField w = opField w') (harg : argField w = argField w') : w = w' := by
  rw [← opField_append_argField w, hop, harg, opField_append_argField]

/-- The check of an unused operand passes 0 alone (R52). -/
theorem noOperand_eq_ok {arg : Word} {i j : Instr} (h : noOperand arg i = .ok j) : arg = 0 ∧ i = j := by
  unfold noOperand at h
  split at h
  next harg => cases h; exact ⟨harg, rfl⟩
  next => cases h

theorem noOperand_eq_error {arg : Word} {i : Instr} {e : Illegal} (h : noOperand arg i = .error e) : arg ≠ 0 := by
  unfold noOperand at h
  split at h
  next => cases h
  next harg => exact harg

/-- A word that decodes holds the opcode of its command in `op` and its operand in `arg`. -/
theorem fields_of_decode_ok {w : CmdWord} {i : Instr} (h : decode w = .ok i) :
    opField w = opcode i ∧ argField w = i.operand := by
  have hop : ∀ {n : Nat}, (opField w).toNat = n → opField w = BitVec.ofNat 8 n := fun hn => by
    rw [← hn, BitVec.ofNat_toNat, BitVec.setWidth_eq]
  unfold decode decodeFor at h
  split at h
  case h_2 hn | h_5 hn | h_6 hn => cases h; exact ⟨hop hn, rfl⟩
  case h_9 => cases h
  -- The arms of format N, which check the operand.
  all_goals
    rename_i hn
    obtain ⟨harg, rfl⟩ := noOperand_eq_ok h
    exact ⟨hop hn, harg⟩

/-- Settles O30: the fields of the word are those of its command's word. -/
theorem encodeOfDecode : Obligations.EncodeOfDecode := by
  intro w i h
  obtain ⟨hop, harg⟩ := fields_of_decode_ok h
  rw [encode, ← hop, ← harg, opField_append_argField]

end Sys2Proof

namespace Sys2Proof.Machine

/-- A word is rejected for a reserved opcode, or for a nonzero operand of a format N opcode (R51, R52). -/
theorem reason_of_decode_error {w : CmdWord} {e : Illegal} (h : decode w = .error e) :
    opField w ∉ opcodes ∨ (opField w ∈ plainOpcodes ∧ argField w ≠ 0) := by
  by_cases hop : opField w ∈ opcodes
  case neg => exact .inl hop
  have hsplit : ∀ op ∈ opcodes, op ∈ plainOpcodes ∨ op = 0x02#8 ∨ op = 0x11#8 ∨ op = 0x12#8 := by decide
  obtain hplain | hop | hop | hop := hsplit _ hop
  · obtain ⟨i, hi⟩ := exists_decode_eq_noOperand hplain
    exact .inr ⟨hplain, noOperand_eq_error (hi.symm.trans h)⟩
  all_goals rw [← opField_append_argField w, hop] at h
  · rw [decode_trd_append] at h; cases h
  · rw [decode_ldacc_append] at h; cases h
  · rw [decode_abs_append] at h; cases h

/-! ### The match and mask table (R50) -/

/-- The rows as R50 builds them: the opcode in `op`, and a mask that takes in `arg` exactly for format N. -/
theorem pattern_mask_of_mem_opcodeRows : ∀ r ∈ opcodeRows, r.opcode ∈ opcodes ∧ r.pattern = r.opcode ++ 0#64 ∧
    r.mask = BitVec.allOnes 8 ++ (if r.opcode ∈ plainOpcodes then BitVec.allOnes 64 else 0#64) := by
  decide

/-- A word selects the row of its opcode, if its operand is 0 where the format has none. -/
theorem selects_iff {r : OpcodeRow} (hr : r ∈ opcodeRows) (w : CmdWord) :
    r.selects w = true ↔ opField w = r.opcode ∧ (r.opcode ∈ plainOpcodes → argField w = 0) := by
  obtain ⟨-, hpattern, hmask⟩ := pattern_mask_of_mem_opcodeRows r hr
  have hand : w &&& r.mask = opField w ++ (if r.opcode ∈ plainOpcodes then argField w else 0#64) := by
    rw [hmask]
    nth_rw 1 [← opField_append_argField w]
    rw [BitVec.and_append, BitVec.and_allOnes]
    split
    · rw [BitVec.and_allOnes]
    · rw [BitVec.and_zero]
  rw [OpcodeRow.selects, beq_iff_eq, hand, hpattern]
  constructor
  · intro h
    have hop := congrArg opField h
    have harg := congrArg argField h
    simp only [opField_append, argField_append] at hop harg
    exact ⟨hop, fun hplain => by rwa [if_pos hplain] at harg⟩
  · rintro ⟨hop, harg⟩
    split
    next hplain => rw [hop, harg hplain]; rfl
    next => rw [hop]

/-- Every command has a row. -/
theorem exists_row_opcode (i : Instr) : ∃ r ∈ opcodeRows, r.opcode = opcode i := by
  have hrows : ∀ op ∈ opcodes, ∃ r ∈ opcodeRows, r.opcode = op := by decide
  refine hrows _ ?_
  cases i <;> simp [opcode, opcodes]

/-- A command of format N carries 0. -/
theorem operand_of_plain {i : Instr} (h : opcode i ∈ plainOpcodes) : i.operand = 0 := by
  cases i with
  | tgen | stat | init | rdacc | fmt => rfl
  | trd | ldacc | abs => simp [opcode, plainOpcodes] at h

/-- Settles O31: the word's own opcode names the one row it can select. -/
theorem decoderFollowsTheMaskTable : Obligations.DecoderFollowsTheMaskTable := by
  intro w
  refine ⟨fun r hr r' hr' hsel hsel' => ?_, fun i hi => ?_, fun e he r hr => ?_⟩
  · have hop : r.opcode = r'.opcode := ((selects_iff hr w).1 hsel).1.symm.trans ((selects_iff hr' w).1 hsel').1
    have hunique : ∀ r ∈ opcodeRows, ∀ r' ∈ opcodeRows, r.opcode = r'.opcode → r = r' := by decide
    exact hunique r hr r' hr' hop
  · obtain ⟨hop, harg⟩ := fields_of_decode_ok hi
    obtain ⟨r, hr, hrow⟩ := exists_row_opcode i
    refine ⟨r, hr, (selects_iff hr w).2 ⟨hop.trans hrow.symm, fun hplain => ?_⟩, hrow⟩
    rw [hrow] at hplain
    rw [harg, operand_of_plain hplain]
  · rw [← Bool.not_eq_true, selects_iff hr]
    rintro ⟨hop, harg⟩
    obtain hreserved | ⟨hplain, hne⟩ := reason_of_decode_error he
    · exact hreserved (hop ▸ (pattern_mask_of_mem_opcodeRows r hr).1)
    · exact hne (harg (hop ▸ hplain))

/-- Settles O35: the words are evaluated by the decoder. -/
theorem sampleWordsDecode : Obligations.SampleWordsDecode :=
  ⟨rfl, rfl, rfl, rfl, rfl, rfl, rfl, rfl, rfl, rfl⟩

/-- Settles O33: the parameter is read in the arm of opcode 0x14 alone. -/
theorem withoutFmtItsOpcodeIsReserved : Obligations.WithoutFmtItsOpcodeIsReserved := by
  intro w
  refine ⟨fun hop => ?_, fun hop => ?_⟩
  · rw [decodeFor, hop]
    rfl
  · unfold decodeFor
    split
    case h_8 hn => exact absurd (BitVec.eq_of_toNat_eq hn) hop
    all_goals rfl

/-! ### The response word (R47, R125) -/

/-- Settles O34: the response word is its status followed by its data. -/
theorem responseWordFields : Obligations.ResponseWordFields := by
  refine ⟨fun r => ⟨?_, ?_⟩, rfl, rfl, rfl⟩
  · exact BitVec.extractLsb'_append_eq_left
  · exact BitVec.extractLsb'_append_eq_right

theorem statusCode_injective : Function.Injective statusCode := by
  intro a b h
  cases a <;> cases b <;> simp [statusCode] at h ⊢

/-! ### The listings (R57) -/

/-- A field of `4 * n` bits is the numeral its `n` digits write. -/
theorem numeralFrom_hexDigits_toNat {width n : Nat} (v : BitVec width) (hwidth : 2 ^ width = 16 ^ n) :
    numeralFrom 16 0 (hexDigits n v.toNat) = some v.toNat :=
  numeralFrom_hexDigits_of_lt (hwidth ▸ v.isLt)

theorem hexDigits_toNat_injective {width n : Nat} (hwidth : 2 ^ width = 16 ^ n) :
    Function.Injective fun v : BitVec width => hexDigits n v.toNat := by
  intro v v' h
  have hnum := congrArg (numeralFrom 16 0) h
  simp only [numeralFrom_hexDigits_toNat _ hwidth] at hnum
  exact BitVec.eq_of_toNat_eq (Option.some.inj hnum)

/-- Two listings of fields of the same widths are equal only if the fields are. -/
theorem listing_inj {m n width width' : Nat} (hm : 2 ^ width = 16 ^ m) (hn : 2 ^ width' = 16 ^ n)
    {a b : BitVec width} {c d : BitVec width'}
    (h : hexDigits m a.toNat ++ ' ' :: hexDigits n c.toNat = hexDigits m b.toNat ++ ' ' :: hexDigits n d.toNat) :
    a = b ∧ c = d := by
  obtain ⟨hleft, hright⟩ := List.append_inj h (by rw [length_hexDigits, length_hexDigits])
  exact ⟨hexDigits_toNat_injective hm hleft, hexDigits_toNat_injective hn (List.cons.inj hright).2⟩

/-- Settles O37: the digits of a field are the numeral of its value, and a listing is cut into its fields by their lengths. -/
theorem listingsNameTheirWords : Obligations.ListingsNameTheirWords := by
  have hbyte : 2 ^ 8 = 16 ^ 2 := by norm_num
  have hword : 2 ^ 64 = 16 ^ 16 := by norm_num
  have hdata : 2 ^ 128 = 16 ^ 32 := by norm_num
  refine ⟨fun w => ⟨_, _, rfl, length_hexDigits _ _, length_hexDigits _ _, numeralFrom_hexDigits_toNat _ hbyte,
      numeralFrom_hexDigits_toNat _ hword⟩, fun w w' h => ?_,
    fun r => ⟨_, _, rfl, length_hexDigits _ _, length_hexDigits _ _, numeralFrom_hexDigits_toNat _ hbyte,
      numeralFrom_hexDigits_toNat _ hdata⟩, fun r r' h => ?_⟩
  · obtain ⟨hop, harg⟩ := listing_inj hbyte hword h
    exact eq_of_fields hop harg
  · obtain ⟨hstatus, hpayload⟩ := listing_inj hbyte hdata h
    exact congrArg₂ Response.mk (statusCode_injective hstatus) hpayload

end Sys2Proof.Machine
end

section
/-! The arithmetic of the block (spec/40_table_generator.md section 4, spec/41_accumulator.md section 4): the shift step is linear
and invertible, the byte step is eight shift steps, and `update` inherits both. -/

namespace Sys2Proof.Machine

/-- Settles O1: the four coefficients of R1 against the literal, bit by bit. -/
theorem polyIsTheReflectedGenerator : Obligations.PolyIsTheReflectedGenerator := ⟨rfl, by decide⟩

/-! ### The shift step (R65, R74, R76) -/

/-- The two branches of the step in one: `POLY` goes in where bit 0 comes out. -/
theorem shiftStep_eq (r : Word) : shiftStep r = (r >>> 1) ^^^ (if r.getLsbD 0 then poly else 0) := by
  unfold shiftStep
  split
  · rfl
  · exact BitVec.xor_zero.symm

theorem shiftStep_of_even {r : Word} (h : r.getLsbD 0 = false) : shiftStep r = r >>> 1 := by
  rw [shiftStep, h]
  rfl

theorem shiftStep_xor (r s : Word) : shiftStep (r ^^^ s) = shiftStep r ^^^ shiftStep s := by
  have hpoly : ∀ b c : Bool, (if (b ^^ c) = true then poly else 0) =
      (if b = true then poly else 0) ^^^ (if c = true then poly else 0) := by decide
  rw [shiftStep_eq, BitVec.ushiftRight_xor_distrib, BitVec.getLsbD_xor, hpoly, shiftStep_eq r, shiftStep_eq s]
  ac_rfl

theorem iterate_shiftStep_xor (n : Nat) (r s : Word) :
    shiftStep^[n] (r ^^^ s) = shiftStep^[n] r ^^^ shiftStep^[n] s := by
  induction n generalizing r s with
  | zero => rfl
  | succ n ih => rw [Function.iterate_succ_apply, shiftStep_xor, ih]; rfl

/-- Bit 63 of the result tells whether `POLY` went in (R76). -/
theorem getLsbD_shiftStep_63 (r : Word) : (shiftStep r).getLsbD 63 = r.getLsbD 0 := by
  rw [shiftStepMovesEveryBitTowardZero r 63 (by decide), show poly.getLsbD 63 = true from rfl]
  simp

/-- The inverse R76 gives: take `POLY` out if bit 63 tells it went in, shift back, and put that bit in place 0. -/
def shiftStepInverse (t : Word) : Word :=
  ((t ^^^ (if t.getLsbD 63 then poly else 0)) <<< 1) ||| (if t.getLsbD 63 then 1 else 0)

/-- A word is its upper bits shifted back, with its bit 0. -/
theorem ushiftRight_shiftLeft_one (r : Word) : ((r >>> 1) <<< 1) ||| (if r.getLsbD 0 then 1 else 0) = r := by
  apply BitVec.eq_of_getLsbD_eq
  intro i hi
  rcases i with _ | i
  · cases hbit : r.getLsbD 0 <;> simp
  · cases hbit : r.getLsbD 0 <;> simp [hi, Nat.add_comm]

theorem leftInverse_shiftStep : Function.LeftInverse shiftStepInverse shiftStep := by
  intro r
  rw [shiftStepInverse, getLsbD_shiftStep_63, shiftStep_eq, BitVec.xor_assoc, BitVec.xor_self, BitVec.xor_zero]
  exact ushiftRight_shiftLeft_one r

theorem bijective_shiftStep : Function.Bijective shiftStep :=
  Finite.injective_iff_bijective.1 leftInverse_shiftStep.injective

/-- Settles O5: the rule's inverse is a left inverse, and a one-to-one map of a finite set is onto. -/
theorem shiftStepIsABijection : Obligations.ShiftStepIsABijection := ⟨bijective_shiftStep, leftInverse_shiftStep⟩

/-! ### The table (R74, R75) -/

theorem gen_xor (i j : Byte) : gen (i ^^^ j) = gen i ^^^ gen j := by
  simp only [gen_eq_iterate, BitVec.setWidth_xor, iterate_shiftStep_xor]

/-- Exclusive-or of chosen entries is the entry of the exclusive-or of their indices. -/
theorem foldl_xor_gen (i acc : Byte) (ks : List Nat) :
    ks.foldl (fun a k => if i.getLsbD k then a ^^^ gen (1#8 <<< k) else a) (gen acc) =
      gen (ks.foldl (fun a k => if i.getLsbD k then a ^^^ (1#8 <<< k) else a) acc) := by
  induction ks generalizing acc with
  | nil => rfl
  | cons k ks ih =>
    rw [List.foldl_cons, List.foldl_cons, ← ih]
    split
    · rw [gen_xor]
    · rfl

/-- A byte is the exclusive-or of its set bits. -/
theorem foldl_xor_setBits (i : Byte) :
    (List.range 8).foldl (fun a k => if i.getLsbD k then a ^^^ (1#8 <<< k) else a) 0 = i := by
  revert i
  decide +kernel

/-- Settles O3: the step is linear in each bit, hence so are its iterates and the entries. -/
theorem shiftStepAndTableAreLinear : Obligations.ShiftStepAndTableAreLinear := by
  refine ⟨shiftStep_xor, gen_xor, fun i => ?_, by decide⟩
  have hfold := foldl_xor_gen i 0 (List.range 8)
  rw [foldl_xor_setBits] at hfold
  exact hfold.symm

/-- The only entry with a clear top byte is that of index 0. -/
theorem eq_zero_of_gen_topByte (i : Byte) (h : (gen i).extractLsb' 56 8 = 0) : i = 0 := by
  revert i
  decide +kernel

/-- Linearity leaves only index 0 to look at: two entries with one top byte differ by an entry with a clear top byte. -/
theorem gen_topByte_injective : Function.Injective fun i : Byte => (gen i).extractLsb' 56 8 := by
  intro i j h
  have htop : (gen i).extractLsb' 56 8 = (gen j).extractLsb' 56 8 := h
  have hzero : (gen (i ^^^ j)).extractLsb' 56 8 = 0 := by
    rw [gen_xor, BitVec.extractLsb'_xor, htop, BitVec.xor_self]
    rfl
  exact BitVec.xor_eq_zero_iff.1 (eq_zero_of_gen_topByte _ hzero)

/-- Settles O4: the low bits are read off the 256 entries; the top bytes are one-to-one by linearity, and so onto. -/
theorem tableTopBytesAreABijection : Obligations.TableTopBytesAreABijection :=
  ⟨by decide +kernel, fun _ _ h => gen_topByte_injective h,
    (Finite.injective_iff_bijective.1 gen_topByte_injective).2⟩

/-! ### The byte step (R86, R88, R89) -/

/-- While the bits that come out are 0, the shift steps are shifts. -/
theorem iterate_shiftStep_of_low_zero (n : Nat) {r : Word} (h : ∀ i, i < n → r.getLsbD i = false) :
    shiftStep^[n] r = r >>> n := by
  induction n generalizing r with
  | zero => rfl
  | succ n ih =>
    have hlow : ∀ i, i < n → (r >>> 1).getLsbD i = false := fun i hi => by
      rw [BitVec.getLsbD_ushiftRight]
      exact h _ (by omega)
    rw [Function.iterate_succ_apply, shiftStep_of_even (h 0 (by omega)), ih hlow, ← BitVec.shiftRight_add,
      Nat.add_comm]

/-- A byte has no bit above the low eight. -/
theorem byte_ushiftRight_eight (b : Byte) : (b.setWidth 64 : Word) >>> 8 = 0 := by
  apply BitVec.eq_of_getLsbD_eq
  intro i hi
  rw [BitVec.getLsbD_ushiftRight, BitVec.getLsbD_setWidth, BitVec.getLsbD_of_ge b (8 + i) (by omega), Bool.and_false]
  exact (BitVec.getLsbD_zero).symm

/-- Eight shift steps take the low byte through the table and shift the rest down (R87). -/
theorem iterate_shiftStep_eight (x : Word) : shiftStep^[8] x = gen (x.setWidth 8) ^^^ (x >>> 8) := by
  have hlow : ∀ i, i < 8 → (x ^^^ (x.setWidth 8).setWidth 64).getLsbD i = false := fun i hi => by
    simp [hi, Nat.lt_trans hi (by decide : 8 < 64)]
  have hsplit : x = (x.setWidth 8).setWidth 64 ^^^ (x ^^^ (x.setWidth 8).setWidth 64) := by
    rw [BitVec.xor_comm x, ← BitVec.xor_assoc, BitVec.xor_self, BitVec.zero_xor]
  calc shiftStep^[8] x
      = gen (x.setWidth 8) ^^^ shiftStep^[8] (x ^^^ (x.setWidth 8).setWidth 64) := by
        rw [gen_eq_iterate, ← iterate_shiftStep_xor, ← hsplit]
    _ = gen (x.setWidth 8) ^^^ (x >>> 8) := by
        rw [iterate_shiftStep_of_low_zero 8 hlow, BitVec.ushiftRight_xor_distrib, byte_ushiftRight_eight]
        simp

theorem byteStep_eq (a : Word) (b : Byte) : byteStep a b = gen (a.setWidth 8 ^^^ b) ^^^ (a >>> 8) := by
  rw [byteStep, drainByte, lookupIndex_eq]

theorem byteStep_eq_iterate (a : Word) (b : Byte) : byteStep a b = shiftStep^[8] (a ^^^ b.setWidth 64) := by
  rw [iterate_shiftStep_eight, byteStep_eq, BitVec.setWidth_xor, BitVec.setWidth_setWidth_of_le b (by decide),
    BitVec.setWidth_eq, BitVec.ushiftRight_xor_distrib, byte_ushiftRight_eight]
  simp

/-- The byte may be folded into the accumulator (R86). -/
theorem byteStep_fold (a : Word) (b : Byte) : byteStep a b = byteStep (a ^^^ b.setWidth 64) 0 := by
  rw [byteStep_eq_iterate, byteStep_eq_iterate]
  simp

/-- Settles O16: eight shift steps of `a ^ b` are the table entry of its low byte and the rest shifted down. -/
theorem byteStepIsEightShiftSteps : Obligations.ByteStepIsEightShiftSteps := fun a b =>
  ⟨byteStep_eq_iterate a b, byteStep_fold a b⟩

theorem byteStep_xor (a a' : Word) (b b' : Byte) :
    byteStep (a ^^^ a') (b ^^^ b') = byteStep a b ^^^ byteStep a' b' := by
  simp only [byteStep_eq_iterate, ← iterate_shiftStep_xor, BitVec.setWidth_xor]
  congr 1
  ac_rfl

/-- Settles O18: the shift step is linear, and so is the fold of the byte into the accumulator. -/
theorem byteStepIsLinear : Obligations.ByteStepIsLinear := ⟨byteStep_xor, by decide⟩

theorem byteStep_injective_acc (b : Byte) : Function.Injective fun a => byteStep a b := by
  intro a a' h
  simp only [byteStep_eq_iterate] at h
  exact (BitVec.xor_left_inj _).1 (bijective_shiftStep.injective.iterate 8 h)

theorem byteStep_injective_byte (a : Word) : Function.Injective (byteStep a) := by
  intro b b' h
  simp only [byteStep_eq_iterate] at h
  have hbyte := (BitVec.xor_right_inj _).1 (bijective_shiftStep.injective.iterate 8 h)
  simpa using congrArg (BitVec.setWidth 8) hbyte

/-- The bits shifted in are 0. -/
theorem topByte_ushiftRight_eight (a : Word) : (a >>> 8).extractLsb' 56 8 = 0 := by
  apply BitVec.eq_of_getLsbD_eq
  intro i hi
  rw [BitVec.getLsbD_extractLsb', BitVec.getLsbD_ushiftRight, BitVec.getLsbD_of_ge a _ (by omega), Bool.and_false]
  exact BitVec.getLsbD_zero.symm

/-- The bits above the low byte are the low bits of the shifted word. -/
theorem upperBits_eq_extractLsb'_ushiftRight (a : Word) : a.extractLsb' 8 56 = (a >>> 8).extractLsb' 0 56 := by
  apply BitVec.eq_of_getLsbD_eq
  intro i hi
  simp only [BitVec.getLsbD_extractLsb', BitVec.getLsbD_ushiftRight, Nat.zero_add]

/-- Settles O17: the shifted accumulator leaves the top byte of the entry and the low bits of the sum with it as they are. -/
theorem byteStepIsABijection : Obligations.ByteStepIsABijection := by
  refine fun b => ⟨Finite.injective_iff_bijective.1 (byteStep_injective_acc b),
    fun a => ⟨a.setWidth 8 ^^^ b, ?_, ?_, ?_⟩⟩
  · rw [byteStep_eq, BitVec.extractLsb'_xor, topByte_ushiftRight_eight]
    exact BitVec.xor_zero.symm
  · rw [byteStep_eq, BitVec.xor_comm, ← BitVec.xor_assoc, BitVec.xor_self, BitVec.zero_xor]
    exact upperBits_eq_extractLsb'_ushiftRight a
  · rw [lowBits_eq_setWidth, BitVec.xor_assoc, BitVec.xor_self, BitVec.xor_zero]

/-! ### `update` over a sequence (R112, R113) -/

@[simp] theorem xorBytes_cons (x y : Byte) (xs ys : List Byte) :
    xorBytes (x :: xs) (y :: ys) = (x ^^^ y) :: xorBytes xs ys := rfl

theorem xorBytes_replicate_zero (xs : List Byte) : xorBytes (List.replicate xs.length 0) xs = xs := by
  induction xs with
  | nil => rfl
  | cons x xs ih =>
    rw [List.length_cons, List.replicate_succ, xorBytes_cons, ih]
    simp

theorem update_xor (a a' : Word) {xs ys : List Byte} (h : xs.length = ys.length) :
    update (a ^^^ a') (xorBytes xs ys) = update a xs ^^^ update a' ys := by
  induction xs generalizing a a' ys with
  | nil => cases ys with
    | nil => rfl
    | cons y ys => cases h
  | cons x xs ih => cases ys with
    | nil => cases h
    | cons y ys => rw [xorBytes_cons, update_cons, byteStep_xor, ih _ _ (Nat.succ.inj h), update_cons, update_cons]

theorem update_injective (xs : List Byte) : Function.Injective fun a => update a xs := by
  induction xs with
  | nil => exact fun _ _ h => h
  | cons x xs ih => exact ih.comp (byteStep_injective_acc x)

/-- Settles O20: each part is that of the byte step, carried along the sequence. -/
theorem updateIsLinear : Obligations.UpdateIsLinear := by
  refine ⟨fun a a' xs ys h => update_xor a a' h, fun a xs => ?_, fun a b xs => ?_,
    fun xs => Finite.injective_iff_bijective.1 (update_injective xs)⟩
  · have hsum := update_xor a 0 (List.length_replicate : (List.replicate xs.length (0 : Byte)).length = xs.length)
    rwa [xorBytes_replicate_zero, BitVec.ofNat_eq_ofNat, BitVec.xor_zero] at hsum
  · rw [update_cons, byteStep_fold, update_cons]

/-- Zero bytes leave a zero accumulator zero (R90). -/
theorem update_zero_replicate (m : Nat) : update 0 (List.replicate m 0) = 0 := by
  induction m with
  | zero => rfl
  | succ m ih => rw [List.replicate_succ, update_cons, byteStepIsLinear.2, ih]

/-- Settles O21: both runs reach the byte in question with one accumulator, part there, and never meet again. -/
theorem oneBitChangesTheChecksum : Obligations.OneBitChangesTheChecksum := by
  refine ⟨fun a before after b k hk h => ?_, fun m xs => ?_⟩
  · rw [update_append, update_append, update_cons, update_cons] at h
    have hbyte := byteStep_injective_byte _ (update_injective after h)
    have hbit : ∀ k, k < 8 → 1#8 <<< k ≠ 0 := by decide
    exact hbit k hk ((BitVec.xor_right_inj b).1 (BitVec.xor_zero.trans hbyte)).symm
  · rw [checksum, update_append, update_zero_replicate, checksum]

end Sys2Proof.Machine
end

section
/-! The table space (spec/40_table_generator.md sections 1 to 3, spec/70_reset_and_hazards.md section 1): the table a build leaves,
whatever its order, and what reads it at fixed indices. -/

namespace Sys2Proof.Machine

/-! ### The state with one more response -/

section
variable (r : Response) (s : State)

@[simp] theorem answered_acc : (answered r s).acc = s.acc := rfl
@[simp] theorem answered_tv : (answered r s).tv = s.tv := rfl
@[simp] theorem answered_table : (answered r s).table = s.table := rfl
@[simp] theorem answered_pending : (answered r s).pending = s.pending := rfl
@[simp] theorem answered_responses : (answered r s).responses = s.responses ++ [r] := rfl

end

/-! ### The built table as data (R68, R72) -/

/-- `n` entries listed from index `lo` on, each `gen` of its index. -/
def generated (lo n : Nat) : Memory := (List.range' lo n).map fun i => (i, gen (BitVec.ofNat 8 i))

theorem generated_succ (lo n : Nat) :
    generated lo (n + 1) = (lo, gen (BitVec.ofNat 8 lo)) :: generated (lo + 1) n := rfl

theorem wfFrom_generated (n : Nat) : ∀ lo, lo + n ≤ 256 → Memory.wfFrom lo (generated lo n) = true := by
  induction n with
  | zero => exact fun _ _ => rfl
  | succ n ih =>
    intro lo h
    rw [generated_succ, Memory.wfFrom, ih (lo + 1) (by omega)]
    simp only [Bool.and_true, Bool.and_eq_true, decide_eq_true_eq]
    exact ⟨le_rfl, show lo < 256 by omega⟩

theorem find_generated {a : Nat} (n : Nat) :
    ∀ lo, lo ≤ a → a < lo + n → (generated lo n).find a = some (gen (BitVec.ofNat 8 a)) := by
  induction n with
  | zero => intro lo hle hlt; omega
  | succ n ih =>
    intro lo hle hlt
    rw [generated_succ, Memory.find]
    split
    next heq => rw [heq]
    next hne => exact ih (lo + 1) (by omega) (by omega)

theorem tableBuilt_generated : tableBuilt (generated 0 256) := by
  intro i
  have h := find_generated 256 0 (Nat.zero_le i.toNat) (by omega)
  rwa [BitVec.ofNat_toNat, BitVec.setWidth_eq] at h

/-- Built tables in canonical form are the same data. -/
theorem eq_of_tableBuilt {m m' : Memory} (hwf : m.wf = true) (hwf' : m'.wf = true) (h : tableBuilt m)
    (h' : tableBuilt m') : m = m' :=
  Memory.eq_of_read hwf hwf' fun i => (h i).trans (h' i).symm

/-- Settles O6: a build that names every index leaves every entry generated, and such a table is unique. -/
theorem buildOrderDoesNotMatter : Obligations.BuildOrderDoesNotMatter := by
  intro order m hm horder
  have hbuilt : tableBuilt (fillTable order m) := fun i => by rw [read_fillTable, if_pos (horder i)]
  rw [List.range_eq_range']
  exact eq_of_tableBuilt (wf_fillTable order m hm) (wfFrom_generated 256 0 (by decide)) hbuilt tableBuilt_generated

/-! ### `EnsureTable()`, and the commands that read what it leaves -/

/-- Settles O7: the two branches of the procedure. -/
theorem ensureTableBuildsOnce : Obligations.EnsureTableBuildsOnce := fun s =>
  ⟨ensureTable_of_valid s, fun hs => ⟨_, tableBuilt_ensureTable_of_invalid hs, ensureTable_eq s⟩⟩

/-- Settles O46: both tables are built and in canonical form. -/
theorem rebuiltTableIsTheSame : Obligations.RebuiltTableIsTheSame := by
  intro s hs htv
  obtain ⟨hbuilt, hwf⟩ := ensureTable_built (inv_resetBlock s)
  refine ⟨_, exec_tgen _, ?_⟩
  rw [answered_table]
  exact eq_of_tableBuilt hwf hs.wf hbuilt (hs.built htv)

/-- Settles O10: the words decode to TRD, and the two entries are evaluated. -/
theorem trdSpotValues : Obligations.TrdSpotValues := by
  intro s hs
  refine ⟨⟨_, (executeWord_encode (.trd 0) s).trans (exec_trd_of_le hs (by decide)), ?_⟩,
    ⟨_, (executeWord_encode (.trd 0x80) s).trans (exec_trd_of_le hs (by decide)), ?_⟩⟩
  · rw [answered_responses, ensureTable_responses, show (gen ((0 : Word).setWidth 8)).setWidth 128 = (0 : Data) by decide]
  · rw [answered_responses, ensureTable_responses,
      show (gen ((0x80 : Word).setWidth 8)).setWidth 128 = (0xD800000000000000 : Data) by decide]

/-! ### STAT (R19, R71) -/

/-- `STATUS` bit by bit: `tv` in bit 0, and the hardwired zeros. -/
theorem getLsbD_statusReg (s : State) (i : Nat) : (statusReg s).getLsbD i = (decide (i = 0) && s.tv) := by
  cases htv : s.tv with
  | false => rw [statusReg_of_invalid htv, Bool.and_false]; exact BitVec.getLsbD_zero
  | true => simp [statusReg, htv, BitVec.getLsbD_one]

/-- The opcode of STAT asks for the check of the unused operand (R50, R52). -/
theorem decode_stat_append (arg : Word) : decode (0x03#8 ++ arg) = noOperand arg .stat := by
  rw [decode, decodeFor, opField_append, argField_append]
  rfl

/-- STAT answers with `STATUS`, zero-extended (R71, R58). -/
theorem exec_stat (s : State) : exec .stat s = .next (answered ⟨.ok, (statusReg s).setWidth 128⟩ s) := rfl

/-- Settles O11: STAT only responds, and its word is rejected with a nonzero operand. -/
theorem statReadsTheStatusRegister : Obligations.StatReadsTheStatusRegister := fun s =>
  ⟨getLsbD_statusReg s, exec_stat s, decode_stat_append 0, fun arg harg =>
    executeWord_of_decode_error ((decode_stat_append arg).trans (noOperand_of_ne_zero harg .stat)) s⟩

end Sys2Proof.Machine
end

section
/-! The hexadecimal read-out at the port (spec/43_format.md, R116 to R118): the codes FMT packs, and what it answers. -/

namespace Sys2Proof.Machine

/-- A code packed after others stands below them (R117). -/
theorem packCodes_concat (codes : List Byte) (c : Byte) :
    packCodes (codes ++ [c]) = (packCodes codes <<< 8) ||| c.setWidth 128 :=
  List.foldl_concat ..

/-- The lowest byte of a packing is the code that came last, and above it stand the codes before. -/
theorem extractLsb'_pack_zero (d : Data) (c : Byte) : ((d <<< 8) ||| c.setWidth 128).extractLsb' 0 8 = c := by
  apply BitVec.eq_of_getLsbD_eq
  intro i hi
  simp [hi, Nat.lt_trans hi (by decide : 8 < 128)]

theorem extractLsb'_pack_succ (d : Data) (c : Byte) {p : Nat} (hp : p + 16 ≤ 128) :
    ((d <<< 8) ||| c.setWidth 128).extractLsb' (p + 8) 8 = d.extractLsb' p 8 := by
  apply BitVec.eq_of_getLsbD_eq
  intro i hi
  have hsub : p + 8 + i - 8 = p + i := by omega
  have hcode : c.getLsbD (p + 8 + i) = false := BitVec.getLsbD_of_ge c _ (by omega)
  have hpos : p + 8 + i < 128 ∧ ¬ p + 8 + i < 8 := by omega
  simp only [BitVec.getLsbD_extractLsb', BitVec.getLsbD_or, BitVec.getLsbD_shiftLeft, BitVec.getLsbD_setWidth, hsub, hcode]
  simp [hpos]

/-- Up to 16 codes are packed without loss, the first in the highest byte used. -/
theorem extractLsb'_packCodes (codes : List Byte) (hlen : codes.length ≤ 16) (k : Nat) (hk : k < codes.length) :
    (packCodes codes).extractLsb' (8 * (codes.length - 1 - k)) 8 = codes[k] := by
  induction codes using List.reverseRecOn with
  | nil => cases hk
  | append_singleton codes c ih =>
    simp only [List.length_append, List.length_singleton] at hlen hk
    rw [packCodes_concat]
    rcases Nat.lt_or_ge k codes.length with hlt | hge
    · have hpos : 8 * ((codes ++ [c]).length - 1 - k) = 8 * (codes.length - 1 - k) + 8 := by
        simp only [List.length_append, List.length_singleton]
        omega
      rw [hpos, extractLsb'_pack_succ _ _ (by omega), ih (by omega) hlt, List.getElem_append_left hlt]
    · obtain rfl : k = codes.length := by omega
      simp [extractLsb'_pack_zero]

/-- The ASCII code of a digit (R118; log 12). -/
theorem toNat_charCode_digit (n : BitVec 4) :
    (charCode (digit n)).toNat = if n.toNat ≤ 9 then 0x30 + n.toNat else 0x57 + n.toNat := by
  revert n
  decide

/-- The opcode of FMT asks for the check of the unused operand (R50, R52). -/
theorem decode_fmt_append (arg : Word) : decode (0x14#8 ++ arg) = noOperand arg .fmt := by
  rw [decode, decodeFor, opField_append, argField_append]
  rfl

/-- FMT answers with the codes of `hex16` of the accumulator (R116). -/
theorem exec_fmt (s : State) :
    exec .fmt s = .next (answered ⟨.ok, packCodes ((hex16 s.acc).map charCode)⟩ s) := rfl

/-- Settles O28: the data packs the 16 codes of `hex16`, and the code of character `k` is that of its nibble. -/
theorem fmtReturnsTheCharacterCodes : Obligations.FmtReturnsTheCharacterCodes := by
  intro s
  refine ⟨⟨_, exec_fmt s, fun k hk => ?_⟩, decode_fmt_append 0, fun arg harg =>
    executeWord_of_decode_error ((decode_fmt_append arg).trans (noOperand_of_ne_zero harg .fmt)) s⟩
  have hlen : ((hex16 s.acc).map charCode).length = 16 := by simp [hex16]
  have hcode := extractLsb'_packCodes _ hlen.le k (by omega)
  have hpos : 8 * (((hex16 s.acc).map charCode).length - 1 - k) = 120 - 8 * k := by omega
  rw [hpos] at hcode
  rw [hcode, ← nibble, ← toNat_charCode_digit]
  simp [hex16]

end Sys2Proof.Machine
end

section
/-! What a command that answers can do, in every state (spec/10_state.md R12, R15; spec/30_encoding.md R47): which commands build
the table, which write `ACC`, and the one response of each. -/

namespace Sys2Proof.Machine

/-! ### The table space (R12, R68) -/

/-- The commands that run `EnsureTable()`: TGEN, and TRD and ABS once their operand has passed its check. -/
def builds : Instr → Bool
  | .tgen => true
  | .trd idx => idx.toNat ≤ 255
  | .abs b => b.toNat ≤ 255
  | .stat | .init | .ldacc _ | .rdacc | .fmt => false

theorem builds_iff (i : Instr) : builds i = true ↔
    i = .tgen ∨ (∃ x, i = .trd x ∧ x.toNat ≤ 255) ∨ (∃ b, i = .abs b ∧ b.toNat ≤ 255) := by
  cases i <;> simp [builds]

/-- A command that builds leaves the table space as `EnsureTable()` leaves it; every other leaves it as it is. -/
theorem exec_sameTable_of_builds {i : Instr} {s t : State} (h : exec i s = .next t) :
    SameTable (if builds i then ensureTable s else s) t := by
  cases i with
  | tgen => cases h; exact ⟨rfl, rfl⟩
  | trd idx =>
    obtain ⟨hle, v, -, rfl⟩ | ⟨hgt, rfl⟩ := execTrd_next h
    · rw [builds, decide_eq_true hle]; exact ⟨rfl, rfl⟩
    · rw [builds, decide_eq_false hgt.not_ge]; exact ⟨rfl, rfl⟩
  | abs b =>
    obtain ⟨hle, v, -, rfl⟩ | ⟨hgt, rfl⟩ := execAbs_next h
    · rw [builds, decide_eq_true hle]; exact ⟨rfl, rfl⟩
    · rw [builds, decide_eq_false hgt.not_ge]; exact ⟨rfl, rfl⟩
  | stat | init | ldacc | rdacc | fmt => cases h; exact ⟨rfl, rfl⟩

/-! ### The response (R47, R126) -/

/-- A command that answers appends one response, with data 0 where the status is not OK and where the command returns no value;
it leaves what is pending alone. -/
theorem exec_next_response {i : Instr} {s t : State} (h : exec i s = .next t) :
    t.pending = s.pending ∧ ∃ r : Response, t.responses = s.responses ++ [r] ∧ (r.status ≠ .ok → r.data = 0) ∧
      (opcode i ∈ [0x01#8, 0x10#8, 0x11#8, 0x12#8] → r.data = 0) := by
  cases i with
  | tgen =>
    cases h
    exact ⟨ensureTable_pending s, ⟨.ok, 0⟩, by simp, fun _ => rfl, fun _ => rfl⟩
  | trd idx =>
    obtain ⟨-, v, -, rfl⟩ | ⟨-, rfl⟩ := execTrd_next h
    · exact ⟨by simp, ⟨.ok, resultData v⟩, by simp, fun hst => absurd rfl hst, fun hop => by simp [opcode] at hop⟩
    · exact ⟨rfl, ⟨.invalidInput, 0⟩, rfl, fun _ => rfl, fun _ => rfl⟩
  | abs b =>
    obtain ⟨-, v, -, rfl⟩ | ⟨-, rfl⟩ := execAbs_next h
    · exact ⟨by simp, ⟨.ok, 0⟩, by simp, fun _ => rfl, fun _ => rfl⟩
    · exact ⟨rfl, ⟨.invalidInput, 0⟩, rfl, fun _ => rfl, fun _ => rfl⟩
  | init | ldacc => cases h; exact ⟨rfl, ⟨.ok, 0⟩, rfl, fun _ => rfl, fun _ => rfl⟩
  | stat | rdacc | fmt =>
    cases h
    exact ⟨rfl, _, rfl, fun hst => absurd rfl hst, fun hop => by simp [opcode] at hop⟩

/-- Settles O49: `exec_sameTable_of_builds` in the words of the statement, a build in a state with `tv = 1` changing nothing. -/
theorem tableFrame : Obligations.TableFrame := by
  intro i s t h
  obtain ⟨hpending, r, hresponses, -⟩ := exec_next_response h
  obtain ⟨htv, htable⟩ := exec_sameTable_of_builds h
  refine ⟨hpending, ⟨r, hresponses⟩, fun hi => ?_, fun hs => ?_, fun hs => ?_⟩
  · have hnot : builds i = false := by
      obtain rfl | rfl | ⟨v, rfl⟩ | rfl | rfl := hi <;> rfl
    rw [hnot] at htv htable
    exact ⟨htv, fun a => congrArg (Memory.read · a) htable⟩
  · rw [ensureTable_of_valid s hs, ite_self] at htv htable
    exact ⟨htv.trans hs, fun a => congrArg (Memory.read · a) htable⟩
  · rw [← builds_iff]
    cases hb : builds i with
    | false =>
      rw [hb] at htv htable
      have htf : t.tv = false := htv.trans hs
      exact ⟨by simp [htf], fun ht => absurd (htf.symm.trans ht) Bool.false_ne_true,
        fun _ a => congrArg (Memory.read · a) htable⟩
    | true =>
      rw [hb, if_pos rfl] at htv htable
      have htt : t.tv = true := htv.trans (ensureTable_tv s)
      refine ⟨by simp [htt], fun _ a => ?_, fun ht => absurd (ht.symm.trans htt) Bool.false_ne_true⟩
      rw [htable]
      exact tableBuilt_ensureTable_of_invalid hs a

/-- A word that is answered is a command that answers, or an illegal word that is answered `IllegalCommand`. -/
theorem executeWord_next {w : CmdWord} {s t : State} (h : executeWord w s = .next t) :
    (∃ i, decode w = .ok i ∧ exec i s = .next t) ∨ t = answered ⟨.illegalCommand, 0⟩ s := by
  cases hd : decode w with
  | ok i => exact .inl ⟨i, rfl, (executeWord_of_decode_ok hd s).symm.trans h⟩
  | error e =>
    rw [executeWord_of_decode_error hd] at h
    cases h
    exact .inr rfl

/-- Settles O40: the response of a command is that of `exec_next_response`, and an illegal word's has data 0. -/
theorem oneResponsePerCommand : Obligations.OneResponsePerCommand := by
  intro w s t h
  obtain ⟨i, hi, hexec⟩ | rfl := executeWord_next h
  · rw [(fields_of_decode_ok hi).1]
    exact exec_next_response hexec
  · exact ⟨rfl, _, rfl, fun _ => rfl, fun _ => rfl⟩

/-! ### The accumulator (R15) -/

/-- Settles O48: only three commands put a value in `ACC`, the third once its operand has passed its check. -/
theorem onlyTheAccumulatorCommandsWriteAcc : Obligations.OnlyTheAccumulatorCommandsWriteAcc := by
  refine ⟨fun i s t h hne => ?_, fun e s t h hne => ?_⟩
  · cases i with
    | tgen => cases h; exact absurd (ensureTable_acc s) hne
    | trd idx =>
      obtain ⟨-, v, -, rfl⟩ | ⟨-, rfl⟩ := execTrd_next h
      · exact absurd (ensureTable_acc s) hne
      · exact absurd rfl hne
    | stat | rdacc | fmt => cases h; exact absurd rfl hne
    | init => cases h; exact .inl ⟨rfl, rfl⟩
    | ldacc v => cases h; exact .inr (.inl ⟨v, rfl, rfl⟩)
    | abs b =>
      obtain ⟨hle, v, -, rfl⟩ | ⟨-, rfl⟩ := execAbs_next h
      · exact .inr (.inr ⟨b, rfl, hle, by simp⟩)
      · exact absurd rfl hne
  · cases e with
    | command w =>
      obtain ⟨i, hi, hexec⟩ | rfl := executeWord_next h
      · exact .inr ⟨w, i, rfl, hi, hexec⟩
      · exact absurd rfl hne
    | reset => exact .inl rfl
    | resetDuring w => cases h
    | brokenWord n => cases h

/-! ### Operands out of range (R55) -/

/-- Settles O36: `2^64 - n` is at least `2^63`. -/
theorem negativeLiteralsAreOutOfRange : Obligations.NegativeLiteralsAreOutOfRange := by
  intro n hlo hhi
  have hvalue : (literalValue (.negative n)).toNat = 2 ^ 64 - n := by
    rw [literalValue, BitVec.toNat_ofNat, Nat.mod_eq_of_lt (by omega)]
  have hgt : 255 < (literalValue (.negative n)).toNat := by omega
  have hok : literalOk (.negative n) = true := by
    rw [literalOk, decide_eq_true hlo, decide_eq_true hhi, Bool.and_self]
  exact ⟨hok, hvalue, fun s => ⟨exec_abs_of_gt hgt s, exec_trd_of_gt hgt s⟩⟩

end Sys2Proof.Machine
end

section
/-! Runs (spec/10_state.md R17, R20; spec/70_reset_and_hazards.md section 3). Under the invariant `ACC` and `tv` are all a command
reads: what it answers, and what it leaves in them, are functions of the two. A run is these functions along its words, and the
statements about runs are read off them. -/

namespace Sys2Proof.Machine

/-! ### The block as the host sees it (R20) -/

/-- `ACC` and `tv`; the invariant fixes the table by `tv`. -/
structure Block where
  acc : Word
  tv : Bool

/-- What a state holds of it. -/
def State.block (s : State) : Block := ⟨s.acc, s.tv⟩

/-- The response of each command (R69 to R71, R81 to R85, R116). -/
def answer : Instr → Block → Response
  | .tgen, _ => ⟨.ok, 0⟩
  | .trd idx, _ => if idx.toNat ≤ 255 then ⟨.ok, (gen (idx.setWidth 8)).setWidth 128⟩ else ⟨.invalidInput, 0⟩
  | .stat, b => ⟨.ok, (if b.tv then 1 else 0 : Word).setWidth 128⟩
  | .init, _ => ⟨.ok, 0⟩
  | .ldacc _, _ => ⟨.ok, 0⟩
  | .abs v, _ => absorbResponse v
  | .rdacc, b => ⟨.ok, b.acc.setWidth 128⟩
  | .fmt, b => ⟨.ok, packCodes ((hex16 b.acc).map charCode)⟩

/-- What each command leaves in `ACC` (R15). -/
def accAfter : Instr → Word → Word
  | .init, _ => 0
  | .ldacc v, _ => v
  | .abs v, a => if v.toNat ≤ 255 then byteStep a (v.setWidth 8) else a
  | .tgen, a | .trd _, a | .stat, a | .rdacc, a | .fmt, a => a

/-- What each command leaves in `ACC` and `tv`. -/
def effect (i : Instr) (b : Block) : Block := ⟨accAfter i b.acc, b.tv || builds i⟩

/-- `t` is `s` after the responses `rs`, with `b` in the block and the invariant kept. -/
structure After (s : State) (rs : List Response) (b : Block) (t : State) : Prop where
  block : t.block = b
  responses : t.responses = s.responses ++ rs
  pending : t.pending = s.pending
  inv : Inv t

/-- Under the invariant every command answers, with the response and the accumulator of `answer` and `accAfter`. -/
theorem exec_answer (i : Instr) {s : State} (hs : Inv s) :
    ∃ t, exec i s = .next t ∧ t.acc = accAfter i s.acc ∧ t.responses = s.responses ++ [answer i s.block] := by
  cases i with
  | tgen => exact ⟨_, exec_tgen s, ensureTable_acc s, by simp [answer]⟩
  | trd idx =>
    rcases le_or_gt idx.toNat 255 with hle | hgt
    · exact ⟨_, exec_trd_of_le hs hle, ensureTable_acc s, by simp [answer, hle]⟩
    · exact ⟨_, exec_trd_of_gt hgt s, rfl, by simp [answer, hgt.not_ge]⟩
  | abs v =>
    rcases le_or_gt v.toNat 255 with hle | hgt
    · refine ⟨_, exec_abs_of_le hs hle, ?_, by simp [answer, absorbResponse, hle]⟩
      rw [accAfter, if_pos hle, byteStep, drainByte, lookupIndex_setWidth]
      rfl
    · exact ⟨_, exec_abs_of_gt hgt s, by simp [accAfter, hgt.not_ge], by simp [answer, absorbResponse, hgt.not_ge]⟩
  | stat | init | ldacc | rdacc | fmt => exact ⟨_, rfl, rfl, rfl⟩

/-- Under the invariant a command takes the block where `effect` says. -/
theorem exec_after (i : Instr) {s : State} (hs : Inv s) :
    ∃ t, exec i s = .next t ∧ After s [answer i s.block] (effect i s.block) t := by
  obtain ⟨t, hexec, hacc, hresponses⟩ := exec_answer i hs
  have htv : t.tv = (s.tv || builds i) := by
    rw [(exec_sameTable_of_builds hexec).1]
    cases builds i <;> simp
  exact ⟨t, hexec, congrArg₂ Block.mk hacc htv, hresponses, (exec_next_response hexec).1,
    hs.of_sameTable (exec_sameTable hexec)⟩

/-! ### Words and runs (R49, R17) -/

/-- The response to a word. -/
def wordAnswer (w : CmdWord) (b : Block) : Response :=
  match decode w with
  | .ok i => answer i b
  | .error _ => ⟨.illegalCommand, 0⟩

/-- What a word leaves in the block. -/
def wordEffect (w : CmdWord) (b : Block) : Block :=
  match decode w with
  | .ok i => effect i b
  | .error _ => b

@[simp] theorem wordAnswer_encode (i : Instr) (b : Block) : wordAnswer (encode i) b = answer i b := by
  rw [wordAnswer, decode_encode]

@[simp] theorem wordEffect_encode (i : Instr) (b : Block) : wordEffect (encode i) b = effect i b := by
  rw [wordEffect, decode_encode]

theorem executeWord_after (w : CmdWord) {s : State} (hs : Inv s) :
    ∃ t, executeWord w s = .next t ∧ After s [wordAnswer w s.block] (wordEffect w s.block) t := by
  unfold wordAnswer wordEffect
  cases hd : decode w with
  | ok i =>
    rw [executeWord_of_decode_ok hd]
    exact exec_after i hs
  | error e => exact ⟨_, executeWord_of_decode_error hd s, rfl, rfl, rfl, hs.of_fields rfl rfl⟩

/-- The responses to a list of words. -/
def runAnswers : List CmdWord → Block → List Response
  | [], _ => []
  | w :: ws, b => wordAnswer w b :: runAnswers ws (wordEffect w b)

/-- What a list of words leaves in the block. -/
def runEffect : List CmdWord → Block → Block
  | [], b => b
  | w :: ws, b => runEffect ws (wordEffect w b)

@[simp] theorem length_runAnswers (ws : List CmdWord) (b : Block) : (runAnswers ws b).length = ws.length := by
  induction ws generalizing b with
  | nil => rfl
  | cons w ws ih => rw [runAnswers, List.length_cons, List.length_cons, ih]

theorem After.refl {s : State} (hs : Inv s) : After s [] s.block s := ⟨rfl, (List.append_nil _).symm, rfl, hs⟩

theorem After.trans {s t u : State} {rs rs' : List Response} {b b' : Block} (h : After s rs b t)
    (h' : After t rs' b' u) : After s (rs ++ rs') b' u where
  block := h'.block
  responses := by rw [h'.responses, h.responses, List.append_assoc]
  pending := h'.pending.trans h.pending
  inv := h'.inv

/-- Under the invariant a run ends, with one response per word. -/
theorem runWords_after (ws : List CmdWord) {s : State} (hs : Inv s) :
    ∃ t, runWords ws s = .next t ∧ After s (runAnswers ws s.block) (runEffect ws s.block) t := by
  induction ws generalizing s with
  | nil => exact ⟨s, rfl, .refl hs⟩
  | cons w ws ih =>
    obtain ⟨u, hu, hsu⟩ := executeWord_after w hs
    obtain ⟨t, ht, hut⟩ := ih hsu.inv
    rw [hsu.block] at hut
    exact ⟨t, (runWords_cons_of_next hu ws).trans ht, hsu.trans hut⟩

/-- Settles O58: one response per word. -/
theorem everyRunEndsAndAnswersEachWord : Obligations.EveryRunEndsAndAnswersEachWord := by
  intro ws s hs
  obtain ⟨t, ht, hst⟩ := runWords_after ws hs
  exact ⟨t, _, ht, hst.responses, length_runAnswers ws _, hst.pending, hst.inv⟩

/-! ### Accepted and rejected words (R132 to R134) -/

theorem wellFormed_trd_iff (idx : Word) : (Instr.trd idx).wellFormed = true ↔ idx.toNat ≤ 255 := decide_eq_true_iff

theorem wellFormed_abs_iff (b : Word) : (Instr.abs b).wellFormed = true ↔ b.toNat ≤ 255 := decide_eq_true_iff

/-- A word that passes every check decodes to a command with a legal operand. -/
theorem decode_of_rejection_eq_none {w : CmdWord} (h : rejection w = none) :
    ∃ i, decode w = .ok i ∧ i.wellFormed = true := by
  unfold rejection at h
  split at h
  · cases h
  next hop =>
  split at h
  · cases h
  next hplain =>
  split at h
  · cases h
  next hranged =>
  cases hd : decode w with
  | error e =>
    obtain hnot | hnonzero := reason_of_decode_error hd
    · exact absurd hnot hop
    · exact absurd hnonzero hplain
  | ok i =>
    refine ⟨i, rfl, ?_⟩
    obtain ⟨hopcode, hoperand⟩ := fields_of_decode_ok hd
    rw [hopcode, hoperand] at hranged
    cases i with
    | trd idx =>
      exact (wellFormed_trd_iff idx).2 (not_lt.1 fun hgt => hranged ⟨by simp [opcode, rangedOpcodes], hgt⟩)
    | abs b =>
      exact (wellFormed_abs_iff b).2 (not_lt.1 fun hgt => hranged ⟨by simp [opcode, rangedOpcodes], hgt⟩)
    | tgen | stat | init | ldacc | rdacc | fmt => rfl

/-- A command with a legal operand cannot fail (R130). -/
theorem status_answer_of_wellFormed {i : Instr} (h : i.wellFormed = true) (b : Block) : (answer i b).status = .ok := by
  cases i with
  | trd idx => rw [answer, if_pos ((wellFormed_trd_iff idx).1 h)]
  | abs v => rw [answer, absorbResponse, if_pos ((wellFormed_abs_iff v).1 h)]
  | tgen | stat | init | ldacc | rdacc | fmt => rfl

/-- Settles O39: the word decodes to a command with a legal operand. -/
theorem acceptedWordsAnswerOk : Obligations.AcceptedWordsAnswerOk := by
  intro w s h hs
  obtain ⟨i, hi, hlegal⟩ := decode_of_rejection_eq_none h
  obtain ⟨t, ht, hst⟩ := exec_after i hs
  refine ⟨t, (answer i s.block).data, (executeWord_of_decode_ok hi s).trans ht, ?_⟩
  rw [hst.responses, ← status_answer_of_wellFormed hlegal s.block]

/-- The invariant fixes the table by `tv`. -/
theorem table_eq_of_tv_eq {s t : State} (hs : Inv s) (ht : Inv t) (h : s.tv = t.tv) : s.table = t.table := by
  cases htv : s.tv with
  | false => rw [hs.unbuilt htv, ht.unbuilt (h.symm.trans htv)]
  | true => exact eq_of_tableBuilt hs.wf ht.wf (hs.built htv) (ht.built (h.symm.trans htv))

/-- Settles O41: the rejected word only adds its response, so the words after it start from the same block. -/
theorem rejectedWordIsAsIfNotPresented : Obligations.RejectedWordIsAsIfNotPresented := by
  intro before after w st s hs hrej
  obtain ⟨m, hm, hsm⟩ := runWords_after before hs
  have hw : executeWord w m = .next (answered ⟨st, 0⟩ m) := rejectedWordsOnlyRespond w st m hrej
  have hinv : Inv (answered ⟨st, 0⟩ m) := hsm.inv.of_fields rfl rfl
  obtain ⟨u, hu, hmu⟩ := runWords_after after hsm.inv
  obtain ⟨t, ht, hmt⟩ := runWords_after after hinv
  have hblock : t.block = u.block := hmt.block.trans hmu.block.symm
  have htv : t.tv = u.tv := congrArg Block.tv hblock
  refine ⟨t, u, runAnswers before s.block, runAnswers after m.block,
    (runWords_append_of_next hm _).trans ((runWords_cons_of_next hw after).trans ht),
    (runWords_append_of_next hm _).trans hu, congrArg Block.acc hblock, htv, table_eq_of_tv_eq hmt.inv hmu.inv htv,
    hmt.pending.trans hmu.pending.symm, ?_, length_runAnswers _ _, ?_⟩
  · rw [hmu.responses, hsm.responses]
  · rw [hmt.responses, answered_responses, hsm.responses, List.append_assoc]
    rfl

/-! ### What the host can tell apart (R20, R148) -/

/-- Settles O55: the run starts from one block, and ends in one. -/
theorem accAndTvDetermineEveryRun : Obligations.AccAndTvDetermineEveryRun := by
  intro ws s s' hs hs' hacc htv hresponses
  have hstart : s.block = s'.block := congrArg₂ Block.mk hacc htv
  obtain ⟨t, ht, hst⟩ := runWords_after ws hs
  obtain ⟨t', ht', hst'⟩ := runWords_after ws hs'
  rw [← hstart] at hst'
  have hend : t.block = t'.block := hst.block.trans hst'.block.symm
  have htv' : t.tv = t'.tv := congrArg Block.tv hend
  exact ⟨t, t', ht, ht', congrArg Block.acc hend, htv', table_eq_of_tv_eq hst.inv hst'.inv htv',
    by rw [hst.responses, hst'.responses, hresponses]⟩

/-- Of the commands, STAT alone reads `tv`. -/
theorem answer_eq_of_acc_eq {i : Instr} (hi : i ≠ .stat) {b b' : Block} (h : b.acc = b'.acc) :
    answer i b = answer i b' := by
  cases i with
  | stat => exact absurd rfl hi
  | rdacc | fmt => simp only [answer, h]
  | tgen | trd | init | ldacc | abs => rfl

theorem wordAnswer_eq_of_acc_eq {w : CmdWord} (hw : decode w ≠ .ok .stat) {b b' : Block} (h : b.acc = b'.acc) :
    wordAnswer w b = wordAnswer w b' := by
  unfold wordAnswer
  cases hd : decode w with
  | ok i => exact answer_eq_of_acc_eq (fun hi => hw (hi ▸ hd)) h
  | error e => rfl

theorem wordEffect_acc_eq (w : CmdWord) {b b' : Block} (h : b.acc = b'.acc) :
    (wordEffect w b).acc = (wordEffect w b').acc := by
  unfold wordEffect
  cases decode w with
  | ok i => exact congrArg (accAfter i) h
  | error e => exact h

/-- Without STAT a run answers by `ACC` alone, and leaves in it what does not depend on `tv`. -/
theorem run_eq_of_acc_eq {ws : List CmdWord} (hws : ∀ w ∈ ws, decode w ≠ .ok .stat) {b b' : Block}
    (h : b.acc = b'.acc) : runAnswers ws b = runAnswers ws b' ∧ (runEffect ws b).acc = (runEffect ws b').acc := by
  induction ws generalizing b b' with
  | nil => exact ⟨rfl, h⟩
  | cons w ws ih =>
    obtain ⟨hw, hrest⟩ := List.forall_mem_cons.1 hws
    obtain ⟨hanswers, hacc⟩ := ih hrest (wordEffect_acc_eq w h)
    exact ⟨congrArg₂ List.cons (wordAnswer_eq_of_acc_eq hw h) hanswers, hacc⟩

/-- Settles O54: both runs answer by `ACC` alone. -/
theorem tableValidFlagIsInvisibleButToStat : Obligations.TableValidFlagIsInvisibleButToStat := by
  intro ws s s' hs hs' hacc hresponses hws
  obtain ⟨t, ht, hst⟩ := runWords_after ws hs
  obtain ⟨t', ht', hst'⟩ := runWords_after ws hs'
  obtain ⟨hanswers, hend⟩ := run_eq_of_acc_eq hws (b := s.block) (b' := s'.block) hacc
  refine ⟨t, t', ht, ht', ?_, by rw [hst.responses, hst'.responses, hresponses, hanswers]⟩
  exact (congrArg Block.acc hst.block).trans (hend.trans (congrArg Block.acc hst'.block).symm)

/-- Settles O56: TGEN leaves `ACC` alone, so that the words after it answer as they do without it. -/
theorem buildingAtStartupChangesNoResult : Obligations.BuildingAtStartupChangesNoResult := by
  intro ws s hs hws
  obtain ⟨t, ht, hst⟩ := runWords_after (encode .tgen :: ws) hs
  obtain ⟨u, hu, hsu⟩ := runWords_after ws hs
  have hacc : s.block.acc = (wordEffect (encode .tgen) s.block).acc := by rw [wordEffect_encode]; rfl
  obtain ⟨hanswers, hend⟩ := run_eq_of_acc_eq hws hacc
  refine ⟨t, u, runAnswers ws s.block, ht, hu, ?_, ?_, hsu.responses⟩
  · exact (congrArg Block.acc hst.block).trans (hend.symm.trans (congrArg Block.acc hsu.block).symm)
  · rw [hst.responses, runAnswers, wordAnswer_encode, ← hanswers, answer]

end Sys2Proof.Machine
end

section
/-! Composition at the port (spec/42_composition.md R102, R106, R109, R111, R119; spec/70_reset_and_hazards.md R147): ABSS over any
operands, chunks read out as text, a stream suspended and resumed, and the first commands after a reset. -/

namespace Sys2Proof.Machine

/-! ### ABSS over any operands (R102, R111) -/

theorem absorbedBytes_cons (v : Word) (operands : List Word) : absorbedBytes (v :: operands) =
    if v.toNat ≤ 255 then v.setWidth 8 :: absorbedBytes operands else absorbedBytes operands := by
  rw [absorbedBytes, absorbedBytes]
  split
  next hle => rw [List.filter_cons_of_pos (by simpa using hle), List.map_cons]
  next hgt => rw [List.filter_cons_of_neg (by simpa using hgt)]

theorem runAnswers_abss (operands : List Word) (b : Block) :
    runAnswers (encodeAll (expandAbss operands)) b = operands.map absorbResponse := by
  induction operands generalizing b with
  | nil => rfl
  | cons v operands ih => exact congrArg₂ List.cons (wordAnswer_encode (.abs v) b) (ih _)

theorem runEffect_abss (operands : List Word) (b : Block) : runEffect (encodeAll (expandAbss operands)) b =
    ⟨update b.acc (absorbedBytes operands), b.tv || decide (absorbedBytes operands ≠ [])⟩ := by
  induction operands generalizing b with
  | nil => simp [expandAbss, encodeAll, runEffect, absorbedBytes]
  | cons v operands ih =>
    have hfirst : runEffect (encodeAll (expandAbss (v :: operands))) b =
        runEffect (encodeAll (expandAbss operands)) (effect (.abs v) b) :=
      congrArg (runEffect _) (wordEffect_encode (.abs v) b)
    rw [hfirst, ih, absorbedBytes_cons, effect, accAfter, builds]
    by_cases hle : v.toNat ≤ 255
    · simp [hle]
    · simp [hle]

/-- Settles O22: the run of the expansion, one ABS after another. -/
theorem abssAbsorbsTheBytesInRange : Obligations.AbssAbsorbsTheBytesInRange := by
  intro operands s hs
  obtain ⟨t, ht, hst⟩ := runWords_after (encodeAll (expandAbss operands)) hs
  have hblock := hst.block.trans (runEffect_abss operands s.block)
  refine ⟨t, ht, congrArg Block.acc hblock, ?_, congrArg Block.tv hblock, hst.pending, hst.inv⟩
  rw [hst.responses, runAnswers_abss]

/-! ### Chunks (R106, R109, R119) -/

/-- A run that ends keeps the invariant. -/
theorem inv_of_runWords {ws : List CmdWord} {s t : State} (hs : Inv s) (h : runWords ws s = .next t) : Inv t := by
  obtain ⟨t', ht', hst⟩ := runWords_after ws hs
  cases h.symm.trans ht'
  exact hst.inv

/-- FMT after a run answers last, with the text of the accumulator the run leaves. -/
theorem runWords_fmt_of_next {is : List Instr} {s t : State} (h : runWords (encodeAll is) s = .next t) :
    runWords (encodeAll (is ++ [.fmt])) s = .next (answered ⟨.ok, packCodes ((hex16 t.acc).map charCode)⟩ t) := by
  rw [encodeAll_append, runWords_append_of_next h]
  exact runWords_encodeAll_cons (exec_fmt t) []

/-- Settles O25: both runs leave the checksum of the whole in `ACC`, and FMT reads `ACC` alone. -/
theorem chunkedFormatEqualsOneShotFormat : Obligations.ChunkedFormatEqualsOneShotFormat := by
  intro xs ys s hs
  obtain ⟨m, hm, -⟩ := checksumExpansionComputesChecksum xs s hs
  obtain ⟨t, ht, htacc, -⟩ := runWords_update (checksum xs) ys (inv_of_runWords hs hm)
  obtain ⟨u, hu, huacc, -⟩ := checksumExpansionComputesChecksum (xs ++ ys) s hs
  have hchunks : runWords (encodeAll (expand (.checksum (byteOperands xs)) ++
      expand (.update (checksum xs) (byteOperands ys)))) s = .next t := by
    rw [encodeAll_append, runWords_append_of_next hm, ht]
  have hacc : t.acc = u.acc := by rw [htacc, huacc, chunksCompose.2.1]
  refine ⟨_, _, runWords_fmt_of_next hchunks, runWords_fmt_of_next hu, hacc, ?_⟩
  rw [answered_responses, answered_responses, List.getLast?_concat, List.getLast?_concat, hacc]

/-- Settles O26: the words in between end and keep the invariant, and LDACC sets `ACC` whatever they left in it. -/
theorem suspendedStreamResumes : Obligations.SuspendedStreamResumes := by
  intro xs ys other s hs
  obtain ⟨t, ht, htacc, hlast, -⟩ := checksumExpansionComputesChecksum xs s hs
  obtain ⟨u, hu, htu⟩ := runWords_after other (inv_of_runWords hs ht)
  obtain ⟨v, hv, -, hvlast⟩ := runWords_update t.acc ys htu.inv
  rw [← htacc] at hlast
  refine ⟨t, u, v, ht, hlast, hu, hv, ?_⟩
  rw [hvlast, htacc, chunksCompose.2.1]

/-! ### The first commands after a reset (R147) -/

/-- From a zero accumulator the step is the entry of its byte. -/
theorem byteStep_zero (b : Byte) : byteStep 0 b = gen b := by
  rw [byteStep_eq_iterate, gen_eq_iterate, BitVec.ofNat_eq_ofNat, BitVec.zero_xor]

/-- Settles O47: a reset leaves 0 in `ACC` and meets the invariant. -/
theorem firstCommandsAfterReset : Obligations.FirstCommandsAfterReset := by
  intro s b
  have hs : Inv (resetBlock s) := inv_resetBlock s
  refine ⟨⟨_, (executeWord_encode .rdacc _).trans (exec_rdacc _), rfl⟩,
    ⟨_, (executeWord_encode (.abs (b.setWidth 64)) _).trans (exec_abs_setWidth hs b), ?_, ?_, ?_⟩⟩
  · exact byteStep_zero b
  · rw [respond_tv, setAcc_tv, ensureTable_tv]
  · rw [respond_table, setAcc_table]
    exact (ensureTable_built hs).1

end Sys2Proof.Machine
end
